-- ==== Sys2Proof/Word.lean ====
section
/-! DEFINITION. The word types and register numbers of the block, and reading a bit field as a number (00_scope.md R10). -/

namespace Sys2Proof

/-- A word of the host port and a command word (20_memory.md R35, 30_encoding.md R53). -/
abbrev Word := BitVec 32

/-- One lane of the Keccak state (10_state.md R15). -/
abbrev Lane := BitVec 64

/-- One byte: of the Keccak state, DIN, DOUT, a rate or a suffix. -/
abbrev Byte := BitVec 8

/-- A host byte address, 0x000 to 0xFFF (20_memory.md R35). -/
abbrev Addr := BitVec 12

/-- A V register as the eight words V[i].W[0..7] of the register map, least significant first
(20_memory.md R37, R38). DESIGN CHOICE, safe: only how the 256 bits are written down (log entry 8). -/
abbrev Big := Vector Word 8

/-- A V register number (30_encoding.md R56). -/
abbrev VReg := Fin 16

/-- A point register number (30_encoding.md R56). -/
abbrev PReg := Fin 8

/-- `bits w hi lo` is `w[hi:lo]`, the unsigned value of bits hi down to lo (00_scope.md R10). -/
def bits {n : Nat} (w : BitVec n) (hi lo : Nat) : Nat :=
  w.toNat / 2 ^ lo % 2 ^ (hi + 1 - lo)

end Sys2Proof
end

