-- ==== Sys2Proof/Syntax.lean ====
section
/-! DEFINITION. The twelve commands (30_encoding.md R57), one constructor per row of spec/opcode_table.json. -/

namespace Sys2Proof

/-- A command with its operand fields. A count is a plain number; `Instr.wellFormed` bounds it. -/
inductive Instr where
  /-- Start a sponge computation (41_sponge.md R78). -/
  | kinit
  /-- Absorb the first n bytes of DIN (R80). -/
  | kabs (n : Nat)
  /-- Pad, permute and enter the squeeze phase (R81). -/
  | kfin
  /-- Squeeze n bytes into DOUT (R83). -/
  | ksqz (n : Nat)
  /-- Apply Keccak-f[1600] to the lanes (40_keccak_permutation.md R76). -/
  | kperm
  /-- Modular addition (42_field.md R90). -/
  | fadd (d a b : VReg)
  /-- Modular subtraction (R91). -/
  | fsub (d a b : VReg)
  /-- Modular multiplication (R92). -/
  | fmul (d a b : VReg)
  /-- Modular inverse (R93). -/
  | finv (d a : VReg)
  /-- Point addition (43_point.md R99). -/
  | padd (d a b : PReg)
  /-- Point doubling (R100). -/
  | pdbl (d a : PReg)
  /-- Scalar multiplication of the base point (44_scalar_mult.md R105). -/
  | pmulg (d : PReg) (a : VReg)
deriving DecidableEq, Repr

end Sys2Proof
end

