-- ==== Sys2Proof/WellFormed.lean ====
section
/-! DEFINITION. Which terms of `Instr` are commands the encoding admits (30_encoding.md R55, R56). Register
numbers are in range by their types; the one check left is a count. -/

namespace Sys2Proof

/-- "N must be 1 to 8. N = 0 and N = 9 to 15 are illegal." (30_encoding.md R56) -/
def countOk (n : Nat) : Bool := decide (1 ≤ n ∧ n ≤ 8)

def Instr.wellFormed : Instr → Bool
  | .kinit => true
  | .kabs n => countOk n
  | .kfin => true
  | .ksqz n => countOk n
  | .kperm => true
  | .fadd _ _ _ => true
  | .fsub _ _ _ => true
  | .fmul _ _ _ => true
  | .finv _ _ => true
  | .padd _ _ _ => true
  | .pdbl _ _ => true
  | .pmulg _ _ => true

end Sys2Proof
end

