-- ==== Sys2Proof/Decode.lean ====
section
/-! DEFINITION. Decoding a command word, total, every illegal word refused under a name (30_encoding.md R53 to
R60), the encoder, and the match and mask rows of R57 as a second reading of the same table. -/

namespace Sys2Proof

/-- Why a word decodes to no command: the four classes of 30_encoding.md R59. -/
inductive Illegal where
  /-- (a) an OP value not in R57 -/
  | unlistedOp
  /-- (b) RSV is not 0 -/
  | rsvNonzero
  /-- (c) a must-be-zero field of the format is not 0 -/
  | mustBeZero
  /-- (d) a K-format count outside 1..8 -/
  | badCount
deriving DecidableEq, Repr

/-! ## Fields (R54) -/

def opField (w : Word) : Nat := bits w 7 0
def dField (w : Word) : Nat := bits w 11 8
def aField (w : Word) : Nat := bits w 15 12
def bField (w : Word) : Nat := bits w 19 16
def rsvField (w : Word) : Nat := bits w 31 20

/-- A four-bit field as a V register number (R56). -/
def vNum (f : Nat) : VReg := ⟨f % 16, Nat.mod_lt f (by decide)⟩

/-- Bits 2:0 of a field as a point register number (R56). -/
def pNum (f : Nat) : PReg := ⟨f % 8, Nat.mod_lt f (by decide)⟩

/-! ## Formats (R55) -/

/-- `i`, unless RSV is not 0 or a must-be-zero field (their values listed) is not 0. -/
def checked (w : Word) (zeros : List Nat) (i : Instr) : Except Illegal Instr :=
  if rsvField w ≠ 0 then .error .rsvNonzero
  else if zeros.all (fun z => z == 0) then .ok i
  else .error .mustBeZero

/-- Format K: a well-shaped word whose count is 1 to 8. -/
def checkedCount (w : Word) (i : Instr) : Except Illegal Instr :=
  match checked w [aField w, bField w] i with
  | .ok i => if countOk (dField w) then .ok i else .error .badCount
  | .error e => .error e

/-- `field[3]` of a point register field, which must be 0 (R56). -/
def topBit (f : Nat) : Nat := f / 8

/-- Decoding (R57, R58): one word, one command or the reason why it is illegal. -/
def decode (w : Word) : Except Illegal Instr :=
  let d := dField w
  let a := aField w
  let b := bField w
  match opField w with
  | 0x01 => checked w [d, a, b] .kinit
  | 0x02 => checkedCount w (.kabs d)
  | 0x03 => checked w [d, a, b] .kfin
  | 0x04 => checkedCount w (.ksqz d)
  | 0x05 => checked w [d, a, b] .kperm
  | 0x10 => checked w [] (.fadd (vNum d) (vNum a) (vNum b))
  | 0x11 => checked w [] (.fsub (vNum d) (vNum a) (vNum b))
  | 0x12 => checked w [] (.fmul (vNum d) (vNum a) (vNum b))
  | 0x13 => checked w [b] (.finv (vNum d) (vNum a))
  | 0x20 => checked w [topBit d, topBit a, topBit b] (.padd (pNum d) (pNum a) (pNum b))
  | 0x21 => checked w [topBit d, topBit a, b] (.pdbl (pNum d) (pNum a))
  | 0x22 => checked w [topBit d, b] (.pmulg (pNum d) (vNum a))
  | _ => .error .unlistedOp

/-- The decoder on a word given as spec/opcode_table.json numbers its bits: a command is one 32-bit word
(R53), so the first word is all of it. -/
def decodeTableWord (nbits w : Nat) : Option Instr :=
  match decode (BitVec.ofNat 32 (w % 2 ^ nbits)) with
  | .ok i => some i
  | .error _ => none

/-! ## Encoding (R54, R61) -/

/-- "The word of each instruction is `OP | D << 8 | A << 12 | B << 16`" (R61); the fields do not overlap,
so the sum is the same word. -/
def commandWord (op d a b : Nat) : Word :=
  BitVec.ofNat 32 (op + 2 ^ 8 * d + 2 ^ 12 * a + 2 ^ 16 * b)

def encode : Instr → Word
  | .kinit => commandWord 0x01 0 0 0
  | .kabs n => commandWord 0x02 n 0 0
  | .kfin => commandWord 0x03 0 0 0
  | .ksqz n => commandWord 0x04 n 0 0
  | .kperm => commandWord 0x05 0 0 0
  | .fadd d a b => commandWord 0x10 d a b
  | .fsub d a b => commandWord 0x11 d a b
  | .fmul d a b => commandWord 0x12 d a b
  | .finv d a => commandWord 0x13 d a 0
  | .padd d a b => commandWord 0x20 d a b
  | .pdbl d a => commandWord 0x21 d a 0
  | .pmulg d a => commandWord 0x22 d a 0

/-! ## The match and mask rows of R57 -/

/-- A row: `w & mask == pattern` selects it; `counted` asks for 1 ≤ w[11:8] ≤ 8 as well. -/
structure OpcodeRow where
  mnemonic : String
  pattern : Word
  mask : Word
  counted : Bool
deriving DecidableEq, Repr

def opcodeRows : List OpcodeRow :=
  [⟨"KINIT", 0x00000001, 0xFFFFFFFF, false⟩, ⟨"KABS", 0x00000002, 0xFFFFF0FF, true⟩,
   ⟨"KFIN", 0x00000003, 0xFFFFFFFF, false⟩, ⟨"KSQZ", 0x00000004, 0xFFFFF0FF, true⟩,
   ⟨"KPERM", 0x00000005, 0xFFFFFFFF, false⟩, ⟨"FADD", 0x00000010, 0xFFF000FF, false⟩,
   ⟨"FSUB", 0x00000011, 0xFFF000FF, false⟩, ⟨"FMUL", 0x00000012, 0xFFF000FF, false⟩,
   ⟨"FINV", 0x00000013, 0xFFFF00FF, false⟩, ⟨"PADD", 0x00000020, 0xFFF888FF, false⟩,
   ⟨"PDBL", 0x00000021, 0xFFFF88FF, false⟩, ⟨"PMULG", 0x00000022, 0xFFFF08FF, false⟩]

/-- The row selects the word, its count constraint included (R58). -/
def OpcodeRow.selects (r : OpcodeRow) (w : Word) : Bool :=
  w &&& r.mask == r.pattern && (!r.counted || countOk (bits w 11 8))

/-- The mnemonic of a command, as the table spells it. -/
def Instr.mnemonic : Instr → String
  | .kinit => "KINIT"
  | .kabs _ => "KABS"
  | .kfin => "KFIN"
  | .ksqz _ => "KSQZ"
  | .kperm => "KPERM"
  | .fadd _ _ _ => "FADD"
  | .fsub _ _ _ => "FSUB"
  | .fmul _ _ _ => "FMUL"
  | .finv _ _ => "FINV"
  | .padd _ _ _ => "PADD"
  | .pdbl _ _ => "PDBL"
  | .pmulg _ _ => "PMULG"

end Sys2Proof
end

