-- ==== Sys2Proof/Config.lean ====
section
/-! DEFINITION. The values the spec leaves open (92_eei_decisions.md, "Named parameters left OPEN"):
constants with no body, so that no proof can see a value of one. Each takes the number of the draw. -/

namespace Sys2Proof.Config

/-- `v_reset`: word j of V[i] after the reset numbered `draw` (10_state.md R34, 70_reset_and_hazards.md R122;
93_implementation_defined.md U1, "each bit a draw at reset"). DESIGN CHOICE: log entry 3. -/
opaque vReset (draw i j : Nat) : Word

/-- `inf_reset`: INF[j] after the reset numbered `draw` (U1). DESIGN CHOICE: log entry 3. -/
opaque infReset (draw j : Nat) : Bool

/-- `busy_read`: what the host read numbered `draw` returns of an engine-written register while BUSY = 1
(70_reset_and_hazards.md R127; U2, "a fresh 32-bit draw per read"). Log entry 4. -/
opaque busyRead (draw : Nat) : Word

end Sys2Proof.Config
end

