-- ==== Sys2Proof/Machine/State.lean ====
section
/-! DEFINITION. The state of the block, plain data, and the state after reset (10_state.md R34). -/

namespace Sys2Proof.Machine

/-- PHASE (10_state.md R16). -/
inductive Phase where
  | absorb
  | squeeze
deriving DecidableEq, Repr

/-- The result codes of 60_exceptions.md R107. "The codes 0x09 to 0xFF are never produced." -/
inductive ResultCode where
  | ok
  | illegal
  | range
  | invZero
  | scalar
  | invariant
  | phase
  | cfg
  | halted
deriving DecidableEq, Repr

/-- The three kinds of event of 60_exceptions.md R114: a host access, a command completion and a reset
(the reset input; CTRL.SRST is a host write). Log entry 1. -/
inductive Event where
  /-- `MemRead(a, 4)` by the host (20_memory.md R35) -/
  | hostRead (a : Addr)
  /-- `MemWrite(a, 4, v)` by the host (20_memory.md R35) -/
  | hostWrite (a : Addr) (v : Word)
  /-- the latency of the command in flight is over: the engine completes it (70_reset_and_hazards.md R126) -/
  | complete
  /-- the reset input is asserted (70_reset_and_hazards.md R122) -/
  | resetInput
deriving DecidableEq, Repr

/-- Reasons for the machine to stop with a fault: none. Every error of the block is a result code the
command completes with (60_exceptions.md R108), so this type has no constructor. Safe: nothing is hidden. -/
inductive Fault where
deriving DecidableEq, Repr

/-- Reasons to give a step no meaning. -/
inductive Refusal where
  /-- Raised by `exec` for an instruction with no meaning yet; no arm of this model raises it. Safe. -/
  | notModelled (mnemonic : String)
  /-- Raised by a host read or write whose byte address has addr[1:0] ≠ 0: "A model that represents host
  addresses as byte addresses must refuse an access with addr[1:0] ≠ 0 rather than give it a meaning."
  (20_memory.md R44). Safe: it errs toward unprovable. Log entry 6. -/
  | misalignedAccess
deriving DecidableEq, Repr

/-- The state of the block (10_state.md R34), then the model's own three fields. -/
structure State where
  /-- LANE[0..24] (R15) -/
  lanes : Vector Lane 25
  /-- POS (R16) -/
  pos : Byte
  /-- PHASE (R16) -/
  phase : Phase
  /-- ARATE (R16) -/
  arate : Byte
  /-- ASUFFIX (R16) -/
  asuffix : Byte
  /-- V[0..15] (R17), the points' coordinates among them (R19) -/
  v : Vector Big 16
  /-- INF[0..7] (R18) -/
  inf : Vector Bool 8
  /-- DIN (R22) -/
  din : BitVec 64
  /-- DOUT (R23) -/
  dout : BitVec 64
  /-- STATUS.FATAL (R24) -/
  fatal : Bool
  /-- STATUS.STICKY (R24) -/
  sticky : Bool
  /-- STATUS.OVR (R24) -/
  ovr : Bool
  /-- STATUS.CODE (R24) -/
  code : ResultCode
  /-- ERRCMD (R26) -/
  errcmd : Word
  /-- SPCFG.RATE (R27) -/
  spRate : Byte
  /-- SPCFG.SUFFIX (R27) -/
  spSuffix : Byte
  /-- The command word in flight (R32, 70_reset_and_hazards.md R125); STATUS.BUSY is 1 exactly when there
  is one (R24). Log entry 9. -/
  inflight : Option Word
  /-- The model's own: the host's accesses, the completions and the resets to come, oldest first
  (log entry 1). -/
  events : List Event
  /-- The model's own: what the host's reads returned, newest first (log entry 5). -/
  readLog : List (Addr × Word)
  /-- The model's own: how many free values have been drawn (log entry 4). -/
  draws : Nat
deriving DecidableEq, Repr

/-- V[0..15] after the reset numbered `draw`: any values (R34, 93_implementation_defined.md U1). -/
def freshV (draw : Nat) : Vector Big 16 :=
  Vector.ofFn fun i => Vector.ofFn fun j => Config.vReset draw i j

/-- INF[0..7] after the reset numbered `draw`: any values (R34, U1). -/
def freshInf (draw : Nat) : Vector Bool 8 :=
  Vector.ofFn fun j => Config.infReset draw j

/-- The block right after reset (R34; SPCFG resets to 0x00000188, R27). V and INF are the free values of
draw 0 (DESIGN CHOICE, log entry 3); no host access waits (log entry 1). -/
def State.reset : State where
  lanes := Vector.replicate 25 0
  pos := 0
  phase := .absorb
  arate := 136
  asuffix := 0x01
  v := freshV 0
  inf := freshInf 0
  din := 0
  dout := 0
  fatal := false
  sticky := false
  ovr := false
  code := .ok
  errcmd := 0
  spRate := 136
  spSuffix := 0x01
  inflight := none
  events := []
  readLog := []
  draws := 1

end Sys2Proof.Machine
end

