-- ==== Sys2Proof/Machine/Flags.lean ====
section
/-! DEFINITION. The block's only flags, the STATUS fields (10_state.md R24, R30), and the words STATUS, SPCFG,
SPSTAT and INF read as. -/

namespace Sys2Proof.Machine

/-- The code's number (60_exceptions.md R107). -/
def ResultCode.toByte : ResultCode → Byte
  | .ok => 0x00
  | .illegal => 0x01
  | .range => 0x02
  | .invZero => 0x03
  | .scalar => 0x04
  | .invariant => 0x05
  | .phase => 0x06
  | .cfg => 0x07
  | .halted => 0x08

/-- STATUS.BUSY: "1 from the accepted write of CMD until the command completes" (R24). -/
def State.busy (s : State) : Bool := s.inflight.isSome

/-- PHASE as its bit: 0 = ABSORB, 1 = SQUEEZE (R16). -/
def Phase.toBit : Phase → BitVec 1
  | .absorb => 0
  | .squeeze => 1

/-- STATUS (R24): CODE at 15:8, OVR, STICKY, FATAL and BUSY at 3 to 0, the rest 0. -/
def statusWord (s : State) : Word :=
  0#16 ++ s.code.toByte ++ 0#4 ++ BitVec.ofBool s.ovr ++ BitVec.ofBool s.sticky ++ BitVec.ofBool s.fatal
    ++ BitVec.ofBool s.busy

/-- SPCFG (R27): SUFFIX at 15:8, RATE at 7:0, the rest 0. -/
def spcfgWord (s : State) : Word := 0#16 ++ s.spSuffix ++ s.spRate

/-- "SPSTAT = ASUFFIX[7:0] ++ ARATE[7:0] ++ 0b0000000 ++ PHASE ++ POS[7:0]" (R28). -/
def spstatWord (s : State) : Word := s.asuffix ++ s.arate ++ 0#7 ++ s.phase.toBit ++ s.pos

/-- INF (20_memory.md R37): bit j = INF[j], bits 31:8 are 0. -/
def infWord (s : State) : Word :=
  0#24 ++ BitVec.ofBool s.inf[7] ++ BitVec.ofBool s.inf[6] ++ BitVec.ofBool s.inf[5] ++ BitVec.ofBool s.inf[4]
    ++ BitVec.ofBool s.inf[3] ++ BitVec.ofBool s.inf[2] ++ BitVec.ofBool s.inf[1] ++ BitVec.ofBool s.inf[0]

/-- STICKY after a completion with code c: "1 once any command ended with a nonzero result code" (R24). -/
def stickyAfter (c : ResultCode) (sticky : Bool) : Bool := sticky || c != .ok

/-- FATAL after a completion with code c: "1 once a command ended with INVARIANT" (R24). -/
def fatalAfter (c : ResultCode) (fatal : Bool) : Bool := fatal || c == .invariant

end Sys2Proof.Machine
end

