-- ==== Sys2Proof/Machine/Operands.lean ====
section
/-! DEFINITION. Every operand form: V registers, point registers, the bytes of DIN, DOUT and the Keccak state
(00_scope.md R11; 10_state.md R17 to R23; 41_sponge.md R77). -/

namespace Sys2Proof.Machine

/-! ## V registers -/

/-- The unsigned 256-bit value of a V register: word j holds bits 32j+31:32j (20_memory.md R38). -/
def Big.toNat (b : Big) : Nat :=
  b[0].toNat + 2 ^ 32 * b[1].toNat + 2 ^ 64 * b[2].toNat + 2 ^ 96 * b[3].toNat + 2 ^ 128 * b[4].toNat
    + 2 ^ 160 * b[5].toNat + 2 ^ 192 * b[6].toNat + 2 ^ 224 * b[7].toNat

/-- The eight words of a 256-bit value (R38). -/
def Big.ofNat (x : Nat) : Big :=
  Vector.ofFn fun j => BitVec.ofNat 32 (x / 2 ^ (32 * j.val))

/-- `V[i]` (00_scope.md R11). -/
def State.getV (s : State) (i : VReg) : Nat := Big.toNat s.v[i]

/-- `V[i] <- x` (00_scope.md R11). -/
def State.setV (s : State) (i : VReg) (x : Nat) : State := { s with v := s.v.set i (Big.ofNat x) }

/-- `INF[j] <- b` (00_scope.md R11). -/
def State.setInf (s : State) (j : PReg) (b : Bool) : State := { s with inf := s.inf.set j b }

/-! ## Point registers -/

/-- A point: `Inf`, or `Aff(x, y)` (00_scope.md R12). -/
inductive Point where
  | inf
  | aff (x y : Nat)
deriving DecidableEq, Repr

/-- The V register that holds the x coordinate of P[j] (10_state.md R19). -/
def xReg (j : PReg) : VReg := ⟨2 * j.val, by omega⟩

/-- The V register that holds the y coordinate of P[j] (R19). -/
def yReg (j : PReg) : VReg := ⟨2 * j.val + 1, by omega⟩

/-- Reading P[j]: INF[j] = 1 is the point at infinity, whatever the coordinates (R20). -/
def State.getP (s : State) (j : PReg) : Point :=
  if s.inf[j] then .inf else .aff (s.getV (xReg j)) (s.getV (yReg j))

/-- The coordinates a point is written with: zeros for Inf (R21). -/
def Point.coordinates : Point → Nat × Nat
  | .inf => (0, 0)
  | .aff x y => (x, y)

/-- The INF flag a point is written with (R21). -/
def Point.isInf : Point → Bool
  | .inf => true
  | .aff _ _ => false

/-- Writing P[j]: V[2j], V[2j+1] and INF[j] together (R21). -/
def State.setP (s : State) (j : PReg) (q : Point) : State :=
  ((s.setV (xReg j) q.coordinates.1).setV (yReg j) q.coordinates.2).setInf j q.isInf

/-! ## Bytes -/

/-- Byte b of a 64-bit value, `v[8b+7:8b]` (10_state.md R22, 20_memory.md R42). -/
def byteOf (v : BitVec 64) (b : Nat) : Byte := v.extractLsb' (8 * b) 8

/-- The 64-bit value whose byte b is the b-th of the list, byte 0 in bits 7:0, and whose other bytes are 0
(20_memory.md R42, 41_sponge.md R83). -/
def ofBytes : List Byte → BitVec 64
  | [] => 0
  | b :: rest => ofBytes rest <<< 8 ||| b.setWidth 64

/-- `LANE[i]`. There is no lane beyond 24; the read is total for the definitions' sake, and gives 0 there
(log entry 10). -/
def laneAt (l : Vector Lane 25) (i : Nat) : Lane := l.toList.getD i 0

/-- "StateByte(j) = LANE[j div 8][8*(j mod 8) + 7 : 8*(j mod 8)]" (41_sponge.md R77). -/
def stateByte (l : Vector Lane 25) (j : Nat) : Byte := byteOf (laneAt l (j / 8)) (j % 8)

/-- "XorStateByte(j, b) : LANE[j div 8] <- LANE[j div 8] ^ (zext_64(b) << (8*(j mod 8)))" (41_sponge.md R77).
A j above 199 names no state byte, and nothing is written (log entry 10). -/
def xorStateByte (l : Vector Lane 25) (j : Nat) (b : Byte) : Vector Lane 25 :=
  l.setIfInBounds (j / 8) (laneAt l (j / 8) ^^^ (b.setWidth 64 <<< (8 * (j % 8))))

end Sys2Proof.Machine
end

