-- ==== Sys2Proof/Machine/Ops.lean ====
section
/-! DEFINITION. The shared operations: completing a command with its result code (the block's one way of
reporting an error, 60_exceptions.md R108), clearing the error flags (10_state.md R25) and reset
(70_reset_and_hazards.md R122). -/

namespace Sys2Proof.Machine

/-- The command word in flight. The engine runs only while there is one; 0 stands where there is none
(log entry 12). -/
def State.commandWord (s : State) : Word := s.inflight.getD 0

/-- `complete(c, w)` for the word w in flight (60_exceptions.md R108). -/
def State.complete (s : State) (c : ResultCode) : State :=
  { s with
    code := c
    sticky := stickyAfter c s.sticky
    errcmd := if c = .ok then s.errcmd else s.commandWord
    fatal := fatalAfter c s.fatal
    inflight := none }

/-- The end of a command: its register writes together with completion when it succeeds, completion alone
when it raises an error (60_exceptions.md R108, R109). -/
def State.finish (s : State) (r : Except ResultCode State) : Host.Outcome State Fault Refusal :=
  .next (match r with
    | .ok s' => s'.complete .ok
    | .error c => s.complete c)

/-- CTRL.CLR (10_state.md R25): what clears the record of an error. There is no return from a trap, because
nothing was entered (60_exceptions.md R112). -/
def State.clearFlags (s : State) : State := { s with sticky := false, ovr := false }

/-- Reset, by the reset input or CTRL.SRST (70_reset_and_hazards.md R122): every piece of state takes the
reset value of 10_state.md R34, a command in flight is aborted, V and INF take fresh free values. The model's
own fields, which are outside the block, go on. -/
def State.blockReset (s : State) : State :=
  { State.reset with
    v := freshV s.draws
    inf := freshInf s.draws
    events := s.events
    readLog := s.readLog
    draws := s.draws + 1 }

end Sys2Proof.Machine
end

