-- ==== Sys2Proof/Machine/Field.lean ====
section
/-! DEFINITION. secp256k1 field arithmetic and FADD, FSUB, FMUL, FINV (42_field.md). Values are mathematical
integers; every result is the representative in [0, p) (R88). -/

namespace Sys2Proof.Machine

/-- p, the field prime (00_scope.md R8). Log entry 14. -/
def P_FIELD : Nat := 0xFFFFFFFFFFFFFFFFFFFFFFFFFFFFFFFFFFFFFFFFFFFFFFFFFFFFFFFEFFFFFC2F

/-- `fadd(a, b) = (a + b) mod p` (00_scope.md R12). -/
def fadd (a b : Nat) : Nat := (a + b) % P_FIELD

/-- `fsub(a, b) = (a − b) mod p` (00_scope.md R12), for b ≤ p: p is added first, so the difference is never
negative (R88). -/
def fsub (a b : Nat) : Nat := (a + (P_FIELD - b)) % P_FIELD

/-- `fmul(a, b) = (a * b) mod p` (00_scope.md R12). -/
def fmul (a b : Nat) : Nat := (a * b) % P_FIELD

/-- `a ^ e mod p` by squaring, for an e of at most `fuel` bits. "Only the result of the exponentiation is
architectural." (R94) -/
def fpow : (fuel : Nat) → (a e : Nat) → Nat
  | 0, _, _ => 1 % P_FIELD
  | fuel + 1, a, e =>
    if e % 2 = 1 then fmul a (fpow fuel (fmul a a) (e / 2))
    else fpow fuel (fmul a a) (e / 2)

/-- `finv(a) = a^(p−2) mod p` (00_scope.md R12, R94). -/
def finv (a : Nat) : Nat := fpow 256 a (P_FIELD - 2)

/-- The inverse as every command uses it: "checks the argument first and ends the command with INV_ZERO
(0x03) when it is 0" (R94). -/
def finvChecked (a : Nat) : Except ResultCode Nat :=
  if a = 0 then .error .invZero else .ok (finv a)

/-- A field element is "an integer in [0, p)" (R87). -/
def isElement (x : Nat) : Bool := decide (x < P_FIELD)

/-- A field operand: refused with RANGE when it is p or more (R87). -/
def State.fieldOperand (s : State) (i : VReg) : Except ResultCode Nat :=
  if isElement (s.getV i) then .ok (s.getV i) else .error .range

/-- The shape of FADD, FSUB and FMUL: operand A is checked, then B, then V[D] is written (R87, R89). -/
def fieldBinary (f : Nat → Nat → Nat) (d a b : VReg) (s : State) : Except ResultCode State :=
  match s.fieldOperand a with
  | .error c => .error c
  | .ok x =>
    match s.fieldOperand b with
    | .error c => .error c
    | .ok y => .ok (s.setV d (f x y))

/-- FADD (R90). -/
def execFadd (d a b : VReg) (s : State) : Host.Outcome State Fault Refusal :=
  s.finish (fieldBinary fadd d a b s)

/-- FSUB (R91). -/
def execFsub (d a b : VReg) (s : State) : Host.Outcome State Fault Refusal :=
  s.finish (fieldBinary fsub d a b s)

/-- FMUL (R92). -/
def execFmul (d a b : VReg) (s : State) : Host.Outcome State Fault Refusal :=
  s.finish (fieldBinary fmul d a b s)

/-- FINV's pseudocode (R93): RANGE before INV_ZERO. -/
def runFinv (d a : VReg) (s : State) : Except ResultCode State :=
  match s.fieldOperand a with
  | .error c => .error c
  | .ok x =>
    match finvChecked x with
    | .error c => .error c
    | .ok y => .ok (s.setV d y)

/-- FINV (R93). -/
def execFinv (d a : VReg) (s : State) : Host.Outcome State Fault Refusal := s.finish (runFinv d a s)

end Sys2Proof.Machine
end

