-- ==== Sys2Proof/Machine/Curve.lean ====
section
/-! DEFINITION. The group law and the point commands PADD and PDBL (43_point.md). -/

namespace Sys2Proof.Machine

/-- The sum of two affine points along the line of slope m through (x1, y1) and (x2, _): the last three lines
of `ecadd` (R95). -/
def chord (m x1 y1 x2 : Nat) : Point :=
  let x3 := fsub (fsub (fmul m m) x1) x2
  .aff x3 (fsub (fmul m (fsub x1 x3)) y1)

/-- The slope `num / den`, or INV_ZERO (R94, R95). -/
def slopeChecked (num den : Nat) : Except ResultCode Nat :=
  match finvChecked den with
  | .error c => .error c
  | .ok i => .ok (fmul num i)

/-- `ecadd(P, Q)`, the cases in the source's order (R95). -/
def ecadd : Point → Point → Except ResultCode Point
  | .inf, q => .ok q
  | .aff x1 y1, .inf => .ok (.aff x1 y1)
  | .aff x1 y1, .aff x2 y2 =>
    if x1 = x2 ∧ (y1 + y2) % P_FIELD = 0 then .ok .inf
    else
      match
        (if x1 = x2 ∧ y1 = y2 then slopeChecked (fmul 3 (fmul x1 x1)) (fadd y1 y1)
         else slopeChecked (fsub y2 y1) (fsub x2 x1)) with
      | .error c => .error c
      | .ok m => .ok (chord m x1 y1 x2)

/-- `check_point`: RANGE when a coordinate of a point that is not Inf is p or more (R97). -/
def Point.inRange : Point → Bool
  | .inf => true
  | .aff x y => isElement x && isElement y

/-- A source point of a point command, checked (R97). -/
def State.pointOperand (s : State) (j : PReg) : Except ResultCode Point :=
  if (s.getP j).inRange then .ok (s.getP j) else .error .range

/-- P[D] <- P + Q, or the failure of the addition: the last lines of PADD and PDBL (R99, R100). -/
def writeSum (d : PReg) (p q : Point) (s : State) : Except ResultCode State :=
  match ecadd p q with
  | .error c => .error c
  | .ok r => .ok (s.setP d r)

/-- PADD's pseudocode (R99): P[A] is checked, then P[B]. -/
def runPadd (d a b : PReg) (s : State) : Except ResultCode State :=
  match s.pointOperand a with
  | .error c => .error c
  | .ok p =>
    match s.pointOperand b with
    | .error c => .error c
    | .ok q => writeSum d p q s

/-- PADD (R99). -/
def execPadd (d a b : PReg) (s : State) : Host.Outcome State Fault Refusal := s.finish (runPadd d a b s)

/-- PDBL's pseudocode (R100). -/
def runPdbl (d a : PReg) (s : State) : Except ResultCode State :=
  match s.pointOperand a with
  | .error c => .error c
  | .ok p => writeSum d p p s

/-- PDBL (R100). -/
def execPdbl (d a : PReg) (s : State) : Host.Outcome State Fault Refusal := s.finish (runPdbl d a s)

end Sys2Proof.Machine
end

