-- ==== Sys2Proof/Machine/ScalarMult.lean ====
section
/-! DEFINITION. Scalar multiplication of the base point and PMULG (44_scalar_mult.md). -/

namespace Sys2Proof.Machine

/-- n, the group order (00_scope.md R8). Log entry 14. -/
def N_ORDER : Nat := 0xFFFFFFFFFFFFFFFFFFFFFFFFFFFFFFFEBAAEDCE6AF48A03BBFD25E8CD0364141

/-- The x coordinate of the base point (00_scope.md R7). -/
def Gx : Nat := 0x79BE667EF9DCBBAC55A06295CE870B07029BFCDB2DCE28D959F2815B16F81798

/-- The y coordinate of the base point (00_scope.md R7). -/
def Gy : Nat := 0x483ADA7726A3C4655DA4FBFC0E1108A8FD17B448A68554199C47D08FFB10D4B8

/-- The base point G. -/
def basePoint : Point := .aff Gx Gy

/-- The loop of R103 from bit `i` on, `fuel` bits to go, with running result r and addend x: bits of k, least
significant first; add when the bit is 1, then double the addend. -/
def scalarLoop (k : Nat) : (fuel i : Nat) → (r x : Point) → Except ResultCode Point
  | 0, _, r, _ => .ok r
  | fuel + 1, i, r, x =>
    match (if k.testBit i then ecadd r x else .ok r) with
    | .error c => .error c
    | .ok r' =>
      match ecadd x x with
      | .error c => .error c
      | .ok x' => scalarLoop k fuel (i + 1) r' x'

/-- `scalarMulG(k)` (R103). -/
def scalarMulG (k : Nat) : Except ResultCode Point := scalarLoop k 256 0 .inf basePoint

/-- The result of a scalar multiplication written to P[D], or its failure: the last lines of PMULG (R105). -/
def writeMultiple (d : PReg) (r : Except ResultCode Point) (s : State) : Except ResultCode State :=
  match r with
  | .error c => .error c
  | .ok .inf => .error .invariant
  | .ok (.aff x y) => .ok (s.setP d (.aff x y))

/-- "valid domain is [1, n−1]" (R102). -/
def scalarValid (k : Nat) : Bool := decide (1 ≤ k ∧ k < N_ORDER)

/-- PMULG's pseudocode (R102, R105): SCALAR before any arithmetic. -/
def runPmulg (d : PReg) (a : VReg) (s : State) : Except ResultCode State :=
  if scalarValid (s.getV a) then writeMultiple d (scalarMulG (s.getV a)) s else .error .scalar

/-- PMULG (R105). -/
def execPmulg (d : PReg) (a : VReg) (s : State) : Host.Outcome State Fault Refusal := s.finish (runPmulg d a s)

end Sys2Proof.Machine
end

