-- ==== Sys2Proof/Machine/Keccak.lean ====
section
/-! DEFINITION. The Keccak-f[1600] permutation and KPERM (40_keccak_permutation.md). Lane (x, y) is
LANE[x + 5*y] (R66). -/

namespace Sys2Proof.Machine

/-- The state of the permutation: 25 lanes (R66). -/
abbrev Lanes := Vector Lane 25

/-- `A[x][y] = LANE[x + 5*y]`, coordinates mod 5 (R66). -/
def lane (a : Lanes) (x y : Nat) : Lane := laneAt a (x % 5 + 5 * (y % 5))

/-- The lanes whose (x, y) is `f x y`. -/
def ofLanes (f : Nat → Nat → Lane) : Lanes := Vector.ofFn fun i => f (i.val % 5) (i.val / 5)

/-- The table of round constants as R72 prints it: row i has RC[i] and RC[i + 12]. -/
def roundConstantRows : List (Lane × Lane) :=
  [(0x0000000000000001, 0x000000008000808B),
   (0x0000000000008082, 0x800000000000008B),
   (0x800000000000808A, 0x8000000000008089),
   (0x8000000080008000, 0x8000000000008003),
   (0x000000000000808B, 0x8000000000008002),
   (0x0000000080000001, 0x8000000000000080),
   (0x8000000080008081, 0x000000000000800A),
   (0x8000000000008009, 0x800000008000000A),
   (0x000000000000008A, 0x8000000080008081),
   (0x0000000000000088, 0x8000000000008080),
   (0x0000000080008009, 0x0000000080000001),
   (0x000000008000000A, 0x8000000080008008)]

/-- The rotation offsets as R72 prints them: row y, then column x. -/
def rotationOffsets : List Nat :=
  [0, 1, 62, 28, 27,
   36, 44, 6, 55, 20,
   3, 10, 43, 25, 39,
   41, 45, 15, 21, 8,
   18, 2, 61, 56, 14]

/-- ROT[x][y] (R72). -/
def rot (x y : Nat) : Nat := rotationOffsets.getD (x + 5 * y) 0

/-- RC[i] (R72): the left column of the table for i below 12, then the right one. -/
def roundConstant (i : Nat) : Lane :=
  if i < 12 then (roundConstantRows.getD i (0, 0)).1 else (roundConstantRows.getD (i - 12) (0, 0)).2

/-- `rotl64(v, r)` (00_scope.md R10). -/
def rotl64 (v : Lane) (r : Nat) : Lane := v <<< r ||| v >>> (64 - r)

/-- The XOR of the five lanes of a column: C of R68. -/
def columnParity (a : Lanes) (x : Nat) : Lane :=
  lane a x 0 ^^^ lane a x 1 ^^^ lane a x 2 ^^^ lane a x 3 ^^^ lane a x 4

/-- θ (R68). -/
def theta (a : Lanes) : Lanes :=
  let c : List Lane := [columnParity a 0, columnParity a 1, columnParity a 2, columnParity a 3, columnParity a 4]
  ofLanes fun x y => lane a x y ^^^ (c.getD ((x + 4) % 5) 0 ^^^ rotl64 (c.getD ((x + 1) % 5) 0) 1)

/-- ρ and π (R69): the lane of (x, y), rotated, goes to (y, 2x + 3y). Read from the destination: position
(x', y') takes the lane of (x' + 3y', x'), because y = x' and 2(x' + 3y') + 3x' = y' mod 5. -/
def piRho (a : Lanes) : Lanes :=
  ofLanes fun x y => rotl64 (lane a (x + 3 * y) x) (rot ((x + 3 * y) % 5) x)

/-- χ (R70). -/
def chi (b : Lanes) : Lanes :=
  ofLanes fun x y => lane b x y ^^^ (~~~(lane b (x + 1) y) &&& lane b (x + 2) y)

/-- ι of round i (R71). -/
def iota (a : Lanes) (i : Nat) : Lanes := a.set 0 (a[0] ^^^ roundConstant i)

/-- One round (R67). -/
def keccakRound (a : Lanes) (i : Nat) : Lanes := iota (chi (piRho (theta a))) i

/-- `keccak_f`: rounds 0 to 23 (R67). -/
def keccakF (a : Lanes) : Lanes := (List.range 24).foldl keccakRound a

/-- KPERM's pseudocode (R76). -/
def runKperm (s : State) : Except ResultCode State := .ok { s with lanes := keccakF s.lanes }

/-- KPERM (R76). -/
def execKperm (s : State) : Host.Outcome State Fault Refusal := s.finish (runKperm s)

end Sys2Proof.Machine
end

