-- ==== Sys2Proof/Machine/Sponge.lean ====
section
/-! DEFINITION. The sponge commands KINIT, KABS, KFIN and KSQZ (41_sponge.md). -/

namespace Sys2Proof.Machine

/-- KINIT's check: "if r == 0 or r > 199: raise Error(CFG)" (R78). -/
def rateLegal (r : Byte) : Bool := decide (1 ≤ r.toNat ∧ r.toNat ≤ 199)

/-- KINIT's pseudocode (R78). -/
def runKinit (s : State) : Except ResultCode State :=
  if rateLegal s.spRate then
    .ok { s with
      lanes := Vector.replicate 25 0
      pos := 0
      phase := .absorb
      arate := s.spRate
      asuffix := s.spSuffix }
  else .error .cfg

/-- KINIT (R78). -/
def execKinit (s : State) : Host.Outcome State Fault Refusal := s.finish (runKinit s)

/-- Absorb one byte: the body of KABS's loop (R80). -/
def absorbByte (s : State) (b : Byte) : State :=
  let lanes := xorStateByte s.lanes s.pos.toNat b
  let pos := s.pos + 1
  if pos = s.arate then { s with lanes := keccakF lanes, pos := 0 }
  else { s with lanes := lanes, pos := pos }

/-- Bytes 0 to n-1 of DIN, in order (10_state.md R22). -/
def dinBytes (s : State) (n : Nat) : List Byte := (List.range n).map (byteOf s.din)

/-- KABS's pseudocode (R80). -/
def runKabs (n : Nat) (s : State) : Except ResultCode State :=
  if s.phase = .absorb then .ok ((dinBytes s n).foldl absorbByte s) else .error .phase

/-- KABS (R80). -/
def execKabs (n : Nat) (s : State) : Host.Outcome State Fault Refusal := s.finish (runKabs n s)

/-- The padded block of KFIN: ASUFFIX at POS and 0x80 at ARATE - 1, combined by XOR (R81, R82). -/
def padded (s : State) : Lanes :=
  xorStateByte (xorStateByte s.lanes s.pos.toNat s.asuffix) (s.arate.toNat - 1) 0x80

/-- KFIN's pseudocode (R81). -/
def runKfin (s : State) : Except ResultCode State :=
  if s.phase = .absorb then .ok { s with lanes := keccakF (padded s), pos := 0, phase := .squeeze }
  else .error .phase

/-- KFIN (R81). -/
def execKfin (s : State) : Host.Outcome State Fault Refusal := s.finish (runKfin s)

/-- Before a byte is squeezed: the permutation, when the block is used up (R83). -/
def refill (s : State) : State :=
  if s.pos = s.arate then { s with lanes := keccakF s.lanes, pos := 0 } else s

/-- Squeeze n bytes: KSQZ's loop (R83), with the bytes in order. -/
def squeezeBytes : Nat → State → List Byte × State
  | 0, s => ([], s)
  | n + 1, s =>
    let s₁ := refill s
    let r := squeezeBytes n { s₁ with pos := s₁.pos + 1 }
    (stateByte s₁.lanes s₁.pos.toNat :: r.1, r.2)

/-- KSQZ's pseudocode (R83). -/
def runKsqz (n : Nat) (s : State) : Except ResultCode State :=
  if s.phase = .squeeze then
    let r := squeezeBytes n s
    .ok { r.2 with dout := ofBytes r.1 }
  else .error .phase

/-- KSQZ (R83). -/
def execKsqz (n : Nat) (s : State) : Host.Outcome State Fault Refusal := s.finish (runKsqz n s)

end Sys2Proof.Machine
end

