-- ==== Sys2Proof/Machine/Dispatch.lean ====
section
/-! DEFINITION. The meaning of each command: its pseudocode and its completion (70_reset_and_hazards.md R126,
items 2 and 3), one arm per constructor of Instr. -/

namespace Sys2Proof.Machine

def exec (i : Instr) (s : State) : Host.Outcome State Fault Refusal :=
  match i with
  | .kinit => Sys2Proof.Machine.execKinit s
  | .kabs n => Sys2Proof.Machine.execKabs n s
  | .kfin => Sys2Proof.Machine.execKfin s
  | .ksqz n => Sys2Proof.Machine.execKsqz n s
  | .kperm => Sys2Proof.Machine.execKperm s
  | .fadd d a b => Sys2Proof.Machine.execFadd d a b s
  | .fsub d a b => Sys2Proof.Machine.execFsub d a b s
  | .fmul d a b => Sys2Proof.Machine.execFmul d a b s
  | .finv d a => Sys2Proof.Machine.execFinv d a s
  | .padd d a b => Sys2Proof.Machine.execPadd d a b s
  | .pdbl d a => Sys2Proof.Machine.execPdbl d a s
  | .pmulg d a => Sys2Proof.Machine.execPmulg d a s

end Sys2Proof.Machine
end

