-- ==== Sys2Proof/Machine/Engine.lean ====
section
/-! DEFINITION. The engine agent: one completion (70_reset_and_hazards.md R126), and the issue of a command
(R125). -/

namespace Sys2Proof.Machine

/-- An accepted write of w to CMD: BUSY becomes 1 and the engine latches w (R125). -/
def State.issue (s : State) (w : Word) : State := { s with inflight := some w }

/-- The engine's step (R126): HALTED is checked before decoding (60_exceptions.md R110, R111), a word that
decodes to no command is ILLEGAL (30_encoding.md R59), any other runs. With no command in flight the engine
is idle and every register keeps its value (60_exceptions.md R121). -/
def engineStep (s : State) : Host.Outcome State Fault Refusal :=
  match s.inflight with
  | none => .next s
  | some w =>
    if s.fatal then .next (s.complete .halted)
    else
      match decode w with
      | .error _ => .next (s.complete .illegal)
      | .ok i => exec i s

/-- `s` with the table word w issued and its latency over, so that the next step is its completion (R125,
R131). The word is given as spec/opcode_table.json numbers its bits. Log entry 1. -/
def issueNow (s : State) (nbits w : Nat) : State :=
  { s.issue (BitVec.ofNat 32 (w % 2 ^ nbits)) with events := .complete :: s.events }

end Sys2Proof.Machine
end

