-- ==== Sys2Proof/Machine/HostPort.lean ====
section
/-! DEFINITION. The host port: the register map and what a host read and a host write of each address does,
idle and busy (20_memory.md R35 to R40; 70_reset_and_hazards.md R125, R127, R128). -/

namespace Sys2Proof.Machine

/-- The registers of the map (20_memory.md R37). -/
inductive HostReg where
  | cmd
  | status
  | ctrl
  | errcmd
  | spcfg
  | spstat
  | dinLo
  | dinHi
  | doutLo
  | doutHi
  | laneLo (i : Fin 25)
  | laneHi (i : Fin 25)
  | vWord (i : VReg) (j : Fin 8)
  | inf
  | reserved
deriving DecidableEq, Repr

/-- The registers below 0x100 (R37). -/
def lowReg : Nat → HostReg
  | 0x000 => .cmd
  | 0x004 => .status
  | 0x008 => .ctrl
  | 0x00C => .errcmd
  | 0x010 => .spcfg
  | 0x014 => .spstat
  | 0x018 => .dinLo
  | 0x01C => .dinHi
  | 0x020 => .doutLo
  | 0x024 => .doutHi
  | _ => .reserved

/-- A lane number, 0 to 24, and a word number, 0 to 7. -/
def laneNum (x : Nat) : Fin 25 := ⟨x % 25, Nat.mod_lt x (by decide)⟩
def wordNum (x : Nat) : Fin 8 := ⟨x % 8, Nat.mod_lt x (by decide)⟩

/-- The register map of R37: lanes at 0x100 + 8i and 0x104 + 8i, V words at 0x200 + 32i + 4j. -/
def hostReg (a : Addr) : HostReg :=
  if a.toNat < 0x100 then lowReg a.toNat
  else if a.toNat < 0x1C8 then
    if a.toNat % 8 = 0 then .laneLo (laneNum ((a.toNat - 0x100) / 8))
    else .laneHi (laneNum ((a.toNat - 0x100) / 8))
  else if a.toNat < 0x200 then .reserved
  else if a.toNat < 0x400 then .vWord (vNum ((a.toNat - 0x200) / 32)) (wordNum (a.toNat % 32 / 4))
  else if a.toNat = 0x400 then .inf
  else .reserved

/-- Bits 31:0 and 63:32 of a 64-bit register (R38). -/
def loWord (v : BitVec 64) : Word := v.extractLsb' 0 32
def hiWord (v : BitVec 64) : Word := v.extractLsb' 32 32

/-- A 64-bit register with one of its words replaced (R38, R45). -/
def setLoWord (v : BitVec 64) (x : Word) : BitVec 64 := hiWord v ++ x
def setHiWord (v : BitVec 64) (x : Word) : BitVec 64 := x ++ loWord v

/-- The word a register holds (R37); the write-only and reserved addresses read 0 (R39, R40). -/
def readReg (s : State) : HostReg → Word
  | .cmd => 0
  | .status => statusWord s
  | .ctrl => 0
  | .errcmd => s.errcmd
  | .spcfg => spcfgWord s
  | .spstat => spstatWord s
  | .dinLo => loWord s.din
  | .dinHi => hiWord s.din
  | .doutLo => loWord s.dout
  | .doutHi => hiWord s.dout
  | .laneLo i => loWord s.lanes[i]
  | .laneHi i => hiWord s.lanes[i]
  | .vWord i j => s.v[i][j]
  | .inf => infWord s
  | .reserved => 0

/-- The registers whose read is unspecified while BUSY = 1 (70_reset_and_hazards.md R127). -/
def HostReg.unspecifiedWhileBusy : HostReg → Bool
  | .errcmd | .spstat | .doutLo | .doutHi | .laneLo _ | .laneHi _ | .vWord _ _ | .inf => true
  | .cmd | .status | .ctrl | .spcfg | .dinLo | .dinHi | .reserved => false

/-- A write to CTRL (10_state.md R25): bit 1 is SRST, bit 0 is CLR, SRST wins. -/
def ctrlWrite (s : State) (v : Word) : State :=
  if v.getLsbD 1 then s.blockReset
  else if v.getLsbD 0 then s.clearFlags
  else s

/-- An accepted write to a register (R37; 10_state.md R25, R27, R29). A write to a read-only or reserved
address has no effect (R39, R40). -/
def writeReg (s : State) (r : HostReg) (v : Word) : State :=
  match r with
  | .cmd => s.issue v
  | .status => s
  | .ctrl => ctrlWrite s v
  | .errcmd => s
  | .spcfg => { s with spRate := v.extractLsb' 0 8, spSuffix := v.extractLsb' 8 8 }
  | .spstat => s
  | .dinLo => { s with din := setLoWord s.din v }
  | .dinHi => { s with din := setHiWord s.din v }
  | .doutLo => s
  | .doutHi => s
  | .laneLo i => { s with lanes := s.lanes.set i (setLoWord s.lanes[i] v) }
  | .laneHi i => { s with lanes := s.lanes.set i (setHiWord s.lanes[i] v) }
  | .vWord i j => { s with v := s.v.set i (s.v[i].set j v) }
  | .inf => { s with inf := Vector.ofFn fun j => v.getLsbD j }
  | .reserved => s

/-- The registers a write to which is dropped while BUSY = 1 and sets OVR (70_reset_and_hazards.md R128). -/
def HostReg.droppedWhileBusy : HostReg → Bool
  | .cmd | .spcfg | .dinLo | .dinHi | .laneLo _ | .laneHi _ | .vWord _ _ | .inf => true
  | .status | .ctrl | .errcmd | .spstat | .doutLo | .doutHi | .reserved => false

/-- addr[1:0] = 0 (R35, R44). -/
def aligned (a : Addr) : Bool := a.toNat % 4 == 0

/-- The state after a read of a that returned w: the host has its answer, and nothing of the block has
changed (R46). -/
def State.answer (s : State) (a : Addr) (w : Word) : State := { s with readLog := (a, w) :: s.readLog }

/-- `MemRead(a, 4)` (R35): a misaligned address is refused (R44); while BUSY = 1 an engine-written register
answers with a fresh free value (70_reset_and_hazards.md R127). -/
def hostRead (s : State) (a : Addr) : Host.Outcome State Fault Refusal :=
  if aligned a then
    .next (
      if s.busy && (hostReg a).unspecifiedWhileBusy then
        { s.answer a (Config.busyRead s.draws) with draws := s.draws + 1 }
      else s.answer a (readReg s (hostReg a)))
  else .refused .misalignedAccess

/-- `MemWrite(a, 4, v)` (R35): a misaligned address is refused (R44); while BUSY = 1 the write is dropped and
sets OVR, but for CTRL and the addresses that ignore writes anyway (70_reset_and_hazards.md R128). -/
def hostWrite (s : State) (a : Addr) (v : Word) : Host.Outcome State Fault Refusal :=
  if aligned a then
    .next (
      if s.busy && (hostReg a).droppedWhileBusy then { s with ovr := true }
      else writeReg s (hostReg a) v)
  else .refused .misalignedAccess

/-- One event (60_exceptions.md R114). -/
def handle (s : State) : Event → Host.Outcome State Fault Refusal
  | .hostRead a => hostRead s a
  | .hostWrite a v => hostWrite s a v
  | .complete => engineStep s
  | .resetInput => .next s.blockReset

end Sys2Proof.Machine
end

