-- ==== Sys2Proof/Machine/Step.lean ====
section
/-! DEFINITION. One step of the block: the next event of the list (60_exceptions.md R114), or, when the host
does nothing more, the engine (70_reset_and_hazards.md R132). -/

namespace Sys2Proof.Machine

/-- One step. The first event happens. With no event left a command in flight completes, so that no command
stays in flight for ever (R132; log entry 2); an idle block stays as it is (60_exceptions.md R121). -/
def step (s : State) : Host.Outcome State Fault Refusal :=
  match s.events with
  | [] => engineStep s
  | e :: rest => handle { s with events := rest } e

/-- `s` with the command word w issued, so that the very next step decodes and runs it: the block fetches no
instruction (20_memory.md R50), a command is what the host wrote to CMD (10_state.md R29). Log entry 1. -/
def State.withFetchWord (s : State) (nbits w : Nat) : State := issueNow s nbits w

end Sys2Proof.Machine
end

