-- ==== Sys2Proof/Safety.lean ====
section
/-! DEFINITION. The terms the statements use: legal bookkeeping, how a command ends, the curve, the sponge of the
source as one function, and command sequences. -/

namespace Sys2Proof.Machine

/-! ## States -/

/-- The legal values of the sponge bookkeeping (10_state.md R16): ARATE 1 to 199; ABSORB: 0 ≤ POS < ARATE;
SQUEEZE: 0 ≤ POS ≤ ARATE. -/
abbrev State.SpongeLegal (s : State) : Prop :=
  1 ≤ s.arate.toNat ∧ s.arate.toNat ≤ 199 ∧ s.pos.toNat ≤ s.arate.toNat ∧
    (s.phase = .absorb → s.pos.toNat < s.arate.toNat)

/-- The state after a command whose word is w ended with the error code c, FATAL aside (60_exceptions.md R108,
R109): the reporting fields are written and nothing else. -/
def endsWithError (s : State) (w : Word) (c : ResultCode) : State :=
  { s with code := c, sticky := true, errcmd := w, inflight := none }

/-- The two states agree in every field the spec gives the block: all but the model's own three. -/
def State.SameBlock (s t : State) : Prop :=
  t = { s with events := t.events, readLog := t.readLog, draws := t.draws }

/-- An event whose host access is a whole aligned word (20_memory.md R35); the others always are. -/
def Event.isAligned : Event → Bool
  | .hostRead a => aligned a
  | .hostWrite a _ => aligned a
  | .complete => true
  | .resetInput => true

/-- The word an idle read of address a returns (20_memory.md R37). -/
def idleRead (s : State) (a : Addr) : Word := readReg s (hostReg a)

/-- The illegal words (30_encoding.md R59): an OP value not in R57, RSV ≠ 0, a must-be-zero field of the format
nonzero, or a K-format count outside 1..8. Written from R55's table of formats, apart from the decoder. -/
def illegalWord (w : Word) : Bool :=
  let d := bits w 11 8
  let a := bits w 15 12
  let b := bits w 19 16
  bits w 31 20 != 0 ||
    !(match bits w 7 0 with
      | 0x01 | 0x03 | 0x05 => d == 0 && a == 0 && b == 0
      | 0x02 | 0x04 => decide (1 ≤ d ∧ d ≤ 8) && a == 0 && b == 0
      | 0x10 | 0x11 | 0x12 => true
      | 0x13 => b == 0
      | 0x20 => decide (d < 8 ∧ a < 8 ∧ b < 8)
      | 0x21 => decide (d < 8 ∧ a < 8) && b == 0
      | 0x22 => decide (d < 8) && b == 0
      | _ => false)

/-- The codes a command may complete with: OK, and those whose row of 60_exceptions.md R107 names it (ILLEGAL and
HALTED are not the meaning's: R110). -/
def commandCodes : Instr → List ResultCode
  | .kinit => [.ok, .cfg]
  | .kabs _ => [.ok, .phase]
  | .kfin => [.ok, .phase]
  | .ksqz _ => [.ok, .phase]
  | .kperm => [.ok]
  | .fadd _ _ _ => [.ok, .range]
  | .fsub _ _ _ => [.ok, .range]
  | .fmul _ _ _ => [.ok, .range]
  | .finv _ _ => [.ok, .range, .invZero]
  | .padd _ _ _ => [.ok, .range, .invZero]
  | .pdbl _ _ => [.ok, .range]
  | .pmulg _ _ => [.ok, .scalar, .invZero, .invariant]

/-! ## The tables' derivation (40_keccak_permutation.md R73) -/

/-- One step of the LFSR of R73, on bits R[7:0] as a number. -/
def lfsrStep (r : Nat) : Nat := if r < 128 then 2 * r else (2 * r - 256) ^^^ 0x71

/-- `rc_bit(t)` of R73. -/
def rcBit (t : Nat) : Nat := (List.range (t % 255)).foldl (fun r _ => lfsrStep r) 1 % 2

/-- `RC[i] = Σ_{j=0..6} rc_bit(j + 7*i) << (2^j − 1)` (R73). -/
def derivedConstant (i : Nat) : Nat :=
  ((List.range 7).map fun j => rcBit (j + 7 * i) * 2 ^ (2 ^ j - 1)).sum

/-- The positions (x, y) that R73's walk visits, with the offset given to each, from step t on. -/
def derivedOffsets : (fuel t x y : Nat) → List (Nat × Nat × Nat)
  | 0, _, _, _ => []
  | fuel + 1, t, x, y => (x, y, (t + 1) * (t + 2) / 2 % 64) :: derivedOffsets fuel (t + 1) y ((2 * x + 3 * y) % 5)

/-! ## The curve -/

/-- A point of the curve: Inf, or field elements with y² ≡ x³ + 7 (mod p) (00_scope.md R7, R12). -/
def Point.OnCurve : Point → Prop
  | .inf => True
  | .aff x y => x < P_FIELD ∧ y < P_FIELD ∧ y ^ 2 % P_FIELD = (x ^ 3 + 7) % P_FIELD

/-- The k-fold sum G + G + ... + G by repeated point addition (44_scalar_mult.md R104, "the k-fold group sum
of G"). -/
def repeatedSum : Nat → Except ResultCode Point
  | 0 => .ok .inf
  | k + 1 =>
    match repeatedSum k with
    | .error c => .error c
    | .ok q => ecadd q basePoint

/-! ## The sponge of the source -/

/-- The bytes of a list XORed into state bytes 0, 1, ... (41_sponge.md R80, "XOR its bytes (little-endian,
8 bytes per lane) into the state"). -/
def xorBlock (l : Lanes) (block : List Byte) : Lanes :=
  block.zipIdx.foldl (fun l p => xorStateByte l p.2 p.1) l

/-- Full blocks absorbed: "for each full block, XOR its bytes into the state and apply the permutation" (R80). -/
def absorbBlocks (r : Nat) (data : List Byte) : Lanes :=
  (List.range (data.length / r)).foldl (fun l i => keccakF (xorBlock l ((data.drop (i * r)).take r)))
    (Vector.replicate 25 0)

/-- The final partial block, padded, absorbed and permuted (R82). -/
def absorbFinal (r : Nat) (suffix : Byte) (l : Lanes) (tail : List Byte) : Lanes :=
  keccakF (xorStateByte (xorStateByte (xorBlock l tail) tail.length suffix) (r - 1) 0x80)

/-- The first r state bytes. -/
def rateBytes (r : Nat) (l : Lanes) : List Byte := (List.range r).map (stateByte l)

/-- n extractions of r bytes with the permutation between them (R83). -/
def extractions (r : Nat) : Nat → Lanes → List Byte
  | 0, _ => []
  | n + 1, l => rateBytes r l ++ extractions r n (keccakF l)

/-- `sponge(rate_bytes, data, domain_suffix_bits, digest_size)` as the source defines it, block-wise: split, absorb,
pad, extract "until at least `digest_size` bytes have been produced; truncate to exactly `digest_size`"
(the source's words in 41_sponge.md R80, R82, R83). -/
def sponge (r : Nat) (data : List Byte) (suffix : Byte) (d : Nat) : List Byte :=
  let absorbed := absorbFinal r suffix (absorbBlocks r data) (data.drop (data.length / r * r))
  (extractions r ((d + r - 1) / r) absorbed).take d

/-! ## Command sequences (41_sponge.md R85) -/

/-- The next state of a command, where there is one. -/
def nextState (o : Host.Outcome State Fault Refusal) : Option State :=
  match o with
  | .next t => some t
  | .fault _ => none
  | .refused _ => none

/-- KABS commands that feed the chunks in order, each chunk placed in DIN first (R84, R85). -/
def feedChunks : List (List Byte) → State → Option State
  | [], s => some s
  | c :: rest, s => (nextState (exec (.kabs c.length) { s with din := ofBytes c })).bind (feedChunks rest)

/-- KSQZ commands with the given counts; the result is the first `count` bytes of each DOUT, in order (R85). -/
def squeezeCounts : List Nat → State → Option (List Byte × State)
  | [], s => some ([], s)
  | n :: rest, s =>
    (nextState (exec (.ksqz n) s)).bind fun t =>
      (squeezeCounts rest t).map fun r => ((List.range n).map (byteOf t.dout) ++ r.1, r.2)

end Sys2Proof.Machine
end

