-- ==== Sys2Proof/Certificates/Slice0/Obligations.lean ====
section
/-! DEFINITION. The statements for the provers, one def Obligations.<Name> : Prop each. The docstring names the
rule of spec/ it formalises. -/

open Sys2Proof Sys2Proof.Machine

/-! ## Encoding (30_encoding.md) -/

/-- Decoding the encoding of a command gives the command back, with every operand at every value (R54 to R58, R61). -/
def Obligations.DecodeOfEncodeIsTheCommand : Prop :=
  ∀ i : Instr, i.wellFormed = true → decode (encode i) = .ok i

/-- A word that decodes is the encoding of the well-formed command it decodes to, so no bit of the word is ignored (R58, R60);
and at most one row of R57 selects a word ("At most one row matches any word", the spec's inference in R58). -/
def Obligations.DecodedWordIsTheEncoding : Prop :=
  (∀ (w : Word) (i : Instr), decode w = .ok i → i.wellFormed = true ∧ encode i = w) ∧
    ∀ w : Word, ∀ r ∈ opcodeRows, ∀ r' ∈ opcodeRows, r.selects w = true → r'.selects w = true → r = r'

/-- R58: the decoder is the search of R57's match and mask rows. A row that selects the word gives that row's mnemonic with the
word's own fields (encoding the command gives back the word, D, A and B with it); when no row does, the word is ILLEGAL. -/
def Obligations.DecodeFollowsMatchAndMask : Prop :=
  ∀ w : Word,
    (∀ r ∈ opcodeRows, r.selects w = true →
      ∃ i, decode w = .ok i ∧ i.mnemonic = r.mnemonic ∧ encode i = w) ∧
    ((∀ r ∈ opcodeRows, r.selects w = false) → ∃ e, decode w = .error e)

/-- The words the spec writes out in R61 and 95_test_vectors.md 2.6 decode to their commands. -/
def Obligations.WordsOfTheSpecDecode : Prop :=
  decode 0x00000001 = .ok .kinit ∧ decode 0x00000802 = .ok (.kabs 8) ∧ decode 0x00000003 = .ok .kfin ∧
    decode 0x00000104 = .ok (.ksqz 1) ∧ decode 0x00000005 = .ok .kperm ∧ decode 0x00021310 = .ok (.fadd 3 1 2) ∧
    decode 0x000FFF11 = .ok (.fsub 15 15 15) ∧ decode 0x00021312 = .ok (.fmul 3 1 2) ∧
    decode 0x00001213 = .ok (.finv 2 1) ∧ decode 0x00010220 = .ok (.padd 2 0 1) ∧
    decode 0x00000121 = .ok (.pdbl 1 0) ∧ decode 0x0000F722 = .ok (.pmulg 7 15)

/-- R59: exactly the words of its four classes decode to nothing, and such a word completes with ILLEGAL and no other effect. It
completes in a step of its own, not in the step of its write (log entry 7). -/
def Obligations.IllegalWordOnlyReports : Prop :=
  ∀ w : Word, ((∃ e, decode w = .error e) ↔ illegalWord w = true) ∧
    (illegalWord w = true → ∀ (s : State) (rest : List Event), s.inflight = some w → s.fatal = false →
      s.events = .complete :: rest →
      step s = .next (endsWithError { s with events := rest } w .illegal))

/-! ## The engine (70_reset_and_hazards.md, 60_exceptions.md) -/

/-- The completion of a word in flight that decodes to i, in a block not locked by FATAL, is exec of i (R126). When a step is
that completion is the model's choice: the first event of the list is a completion, which is used up (the list: log entry 1),
or no event is left (the fairness that R132 asks for: log entry 2). -/
def Obligations.StepRunsTheDecodedCommand : Prop :=
  ∀ (s : State) (w : Word) (i : Instr), s.inflight = some w → s.fatal = false → decode w = .ok i →
    (s.events = [] → step s = exec i s) ∧
    (∀ rest, s.events = .complete :: rest → step s = exec i { s with events := rest })

/-- A step takes the first event: a host read, a host write, the reset input, or a completion with nothing in flight,
which changes nothing but the list (R114; R121). The list is the model's choice (log entry 1). -/
def Obligations.StepTakesTheFirstEvent : Prop :=
  ∀ (s : State) (rest : List Event),
    (∀ a, s.events = .hostRead a :: rest → step s = hostRead { s with events := rest } a) ∧
    (∀ a v, s.events = .hostWrite a v :: rest → step s = hostWrite { s with events := rest } a v) ∧
    (s.events = .resetInput :: rest → step s = .next (State.blockReset { s with events := rest })) ∧
    (s.events = .complete :: rest → s.inflight = none → step s = .next { s with events := rest }) ∧
    (s.events = [] → s.inflight = none → step s = .next s)

/-- R125, its first half: a write of w to CMD while idle is accepted, with FATAL either value: BUSY is 1 in the state after that
write, the engine holds w, and nothing else changes. That a completion follows is CommandInFlightEnds. -/
def Obligations.IdleCmdWriteIssues : Prop :=
  ∀ (s : State) (w : Word), s.inflight = none →
    ∃ t, hostWrite s 0x000 w = .next t ∧ bits (statusWord t) 0 0 = 1 ∧ t = { s with inflight := some w }

/-- R108: a word in flight completes in one step, with the result code c that STATUS.CODE then holds: BUSY is 0; with
c = OK the error fields are as before; with any other c STICKY is 1 and ERRCMD holds the word; FATAL becomes 1 exactly when c
is INVARIANT, and otherwise stays. And every command answers a next state. -/
def Obligations.CompletionRecordsTheCode : Prop :=
  (∀ (s : State) (w : Word) (rest : List Event), s.inflight = some w → s.events = .complete :: rest →
    ∃ (t : State) (c : ResultCode), step s = .next t ∧ t.code = c ∧
      bits (statusWord t) 15 8 = c.toByte.toNat ∧ bits (statusWord t) 0 0 = 0 ∧
      (c = .ok → t.sticky = s.sticky ∧ t.errcmd = s.errcmd) ∧
      (c ≠ .ok → t.sticky = true ∧ t.errcmd = w) ∧
      (c = .invariant → t.fatal = true) ∧ (c ≠ .invariant → t.fatal = s.fatal)) ∧
    ∀ (i : Instr) (s : State), ∃ t, exec i s = .next t

/-- R109: a word that completes with an error writes nothing but the reporting fields of R108: every other register is as
before, whatever the word and whenever the error was found; for a step, and for the meaning of a command. -/
def Obligations.ErrorWritesOnlyTheReport : Prop :=
  (∀ (s t : State) (w : Word) (rest : List Event), s.inflight = some w → s.events = .complete :: rest →
    step s = .next t → t.code ≠ .ok →
    t = { endsWithError { s with events := rest } w t.code with fatal := t.fatal }) ∧
    ∀ (i : Instr) (s t : State) (w : Word), s.inflight = some w → exec i s = .next t → t.code ≠ .ok →
      t = { endsWithError s w t.code with fatal := t.fatal }

/-- R107, "raised by": a command completes with OK or with a code whose row names it. -/
def Obligations.CommandRaisesItsOwnCodes : Prop :=
  ∀ (i : Instr) (s t : State), exec i s = .next t → t.code ∈ commandCodes i

/-- R111: while FATAL is 1 a command completes with HALTED, KINIT included, and no other effect, in a step of its own (log entry
7). -/
def Obligations.FatalHaltsEveryCommand : Prop :=
  ∀ (s : State) (w : Word) (rest : List Event), s.inflight = some w → s.fatal = true →
    s.events = .complete :: rest →
    step s = .next (endsWithError { s with events := rest } w .halted)

/-- R111: FATAL is cleared only by reset, the reset input or CTRL.SRST. -/
def Obligations.FatalClearedOnlyByReset : Prop :=
  ∀ s t : State, step s = .next t → s.fatal = true → t.fatal = false →
    ∃ e rest, s.events = e :: rest ∧ (e = .resetInput ∨ ∃ v : Word, e = .hostWrite 0x008 v ∧ v.getLsbD 1 = true)

/-- R112: the same command on the same register values ends with the same code and the same registers, whatever the
host does around it. -/
def Obligations.CommandsDependOnTheRegistersAlone : Prop :=
  ∀ (i : Instr) (s s' t : State), s.SameBlock s' → exec i s = .next t →
    ∃ t', exec i s' = .next t' ∧ t.SameBlock t'

/-- R132: from a state with a command in flight whose host makes only aligned accesses, the block is idle after
finitely many steps, at most one more than the events to come: the command completed, or a reset aborted it. The bound rests on
the model's list of events (log entries 1 and 2). -/
def Obligations.CommandInFlightEnds : Prop :=
  ∀ s : State, s.busy = true → s.events.all Event.isAligned = true →
    ∃ k, k ≤ s.events.length + 1 ∧ ∃ t, Host.Core.run core k s = .next t ∧ t.busy = false

/-- A block whose host makes only aligned accesses never stops: each step answers a next state, of the same kind
(20_memory.md R35; 60_exceptions.md R108). -/
def Obligations.AlignedAccessesNeverStop : Prop :=
  ∀ s : State, s.events.all Event.isAligned = true →
    ∃ t, step s = .next t ∧ t.events.all Event.isAligned = true

/-! ## Reset (10_state.md R34, 70_reset_and_hazards.md R122) -/

/-- R34: the reset value of every register for which the table gives one. -/
def Obligations.ResetValues : Prop :=
  (∀ i : Fin 25, State.reset.lanes[i] = 0) ∧ State.reset.pos = 0 ∧ State.reset.phase = .absorb ∧
    State.reset.arate = 136 ∧ State.reset.asuffix = 0x01 ∧ State.reset.din = 0 ∧ State.reset.dout = 0 ∧
    statusWord State.reset = 0x00000000 ∧ State.reset.errcmd = 0x00000000 ∧
    spcfgWord State.reset = 0x00000188 ∧ spstatWord State.reset = 0x01880000 ∧ State.reset.inflight = none ∧
    idleRead State.reset 0x000 = 0 ∧ idleRead State.reset 0x008 = 0

/-- R122: the reset input and CTRL.SRST have the same effect, busy or idle: every register for which R34 gives a reset value
has it (ResetValues says which), no STATUS field is set, a command in flight is gone and wrote nothing; V and INF are not
constrained. After it the block accepts a command at once. -/
def Obligations.BothResetsReset : Prop :=
  ∀ s : State, s.blockReset =
      { State.reset with
        v := s.blockReset.v, inf := s.blockReset.inf, events := s.events, readLog := s.readLog,
        draws := s.blockReset.draws } ∧
    handle s .resetInput = .next s.blockReset ∧
    (∀ v : Word, v.getLsbD 1 = true → hostWrite s 0x008 v = .next s.blockReset) ∧
    statusWord s.blockReset = 0 ∧ s.blockReset.inflight = none ∧
    ∀ w : Word, hostWrite s.blockReset 0x000 w = .next { s.blockReset with inflight := some w }

/-- R79: the sponge after reset is the sponge a KINIT with SPCFG = 0x00000188 leaves. -/
def Obligations.ResetSpongeIsKinits : Prop :=
  ∀ s : State, spcfgWord s = 0x00000188 →
    ∃ t, exec .kinit s = .next t ∧ t.code = .ok ∧ t.lanes = State.reset.lanes ∧ t.pos = State.reset.pos ∧
      t.phase = State.reset.phase ∧ t.arate = State.reset.arate ∧ t.asuffix = State.reset.asuffix

/-- R16 at reset. -/
def Obligations.ResetBookkeepingIsLegal : Prop := State.reset.SpongeLegal

/-- R16: every step keeps the sponge bookkeeping legal. -/
def Obligations.StepKeepsBookkeepingLegal : Prop :=
  ∀ s t : State, s.SpongeLegal → step s = .next t → t.SpongeLegal

/-! ## Keccak-f[1600] (40_keccak_permutation.md) -/

/-- R68 with R66's lane coordinates. Which neighbour is rotated and the lane index are the spec's general knowledge (log entry
14). -/
def Obligations.ThetaOfEveryLane : Prop :=
  ∀ (a : Lanes) (x y : Fin 5),
    let c : Nat → Lane := fun x => a[x % 5]'(by omega) ^^^ a[x % 5 + 5]'(by omega) ^^^ a[x % 5 + 10]'(by omega) ^^^
      a[x % 5 + 15]'(by omega) ^^^ a[x % 5 + 20]'(by omega)
    (theta a)[x.val + 5 * y.val]'(by omega) =
      a[x.val + 5 * y.val]'(by omega) ^^^ (c (x + 4) ^^^ (c (x + 1)).rotateLeft 1)

/-- R69: the lane of (x, y), rotated left by ROT[x][y], goes to (y, 2x + 3y mod 5). The table and the lane index are the spec's
general knowledge (log entry 14). -/
def Obligations.RhoPiMovesEveryLane : Prop :=
  ∀ (a : Lanes) (x y : Fin 5),
    (piRho a)[y.val + 5 * ((2 * x.val + 3 * y.val) % 5)]'(by omega) =
      (a[x.val + 5 * y.val]'(by omega)).rotateLeft (rot x y)

/-- R70: every lane from the unmodified row, as the spec's general knowledge has it (log entry 14). -/
def Obligations.ChiOfEveryLane : Prop :=
  ∀ (b : Lanes) (x y : Fin 5),
    (chi b)[x.val + 5 * y.val]'(by omega) =
      b[x.val + 5 * y.val]'(by omega) ^^^
        (~~~(b[(x.val + 1) % 5 + 5 * y.val]'(by omega)) &&& b[(x.val + 2) % 5 + 5 * y.val]'(by omega))

/-- R71 and R67: ι changes lane (0, 0) only, by RC[i]; 24 rounds of the five steps, round 0 with RC[0]. The table is the spec's
general knowledge (log entry 14). -/
def Obligations.IotaAndTheRounds : Prop :=
  (∀ (a : Lanes) (i : Nat) (j : Fin 25), (iota a i)[j] = if j = 0 then a[j] ^^^ roundConstant i else a[j]) ∧
    ∀ a : Lanes, keccakF a = (List.range 24).foldl (fun a i => iota (chi (piRho (theta a))) i) a

/-- R73: the derivation gives every entry of both tables; both are the spec's general knowledge (log entry 14). -/
def Obligations.TablesMatchTheirDerivation : Prop :=
  (∀ i : Fin 24, (roundConstant i).toNat = derivedConstant i) ∧ rot 0 0 = 0 ∧
    (∀ e ∈ derivedOffsets 24 0 1 0, rot e.1 e.2.1 = e.2.2) ∧
    ((derivedOffsets 24 0 1 0).map fun e => e.1 + 5 * e.2.1).Nodup

/-- R76: KPERM. -/
def Obligations.KpermPermutes : Prop :=
  encode .kperm = 0x00000005 ∧
    ∀ s : State, exec .kperm s = .next { s with lanes := keccakF s.lanes, code := .ok, inflight := none }

/-! ## The sponge (41_sponge.md) -/

/-- R77: state byte j is byte j mod 8 of lane j div 8, and XorStateByte changes that byte alone. -/
def Obligations.StateBytesAreLittleEndian : Prop :=
  ∀ (l : Lanes) (j : Fin 200),
    stateByte l j = (l[j.val / 8]'(by omega)).extractLsb' (8 * (j.val % 8)) 8 ∧
    ∀ (k : Fin 200) (b : Byte),
      stateByte (xorStateByte l j b) k = if k = j then stateByte l k ^^^ b else stateByte l k

/-- R78: KINIT with a legal rate; with rate 0 or above 199 it ends with CFG and changes nothing else. -/
def Obligations.KinitStartsASponge : Prop :=
  encode .kinit = 0x00000001 ∧
    ∀ s : State,
      (1 ≤ s.spRate.toNat → s.spRate.toNat ≤ 199 →
        ∃ t, exec .kinit s = .next t ∧ (∀ i : Fin 25, t.lanes[i] = 0) ∧
          t = { s with lanes := t.lanes, pos := 0, phase := .absorb, arate := s.spRate, asuffix := s.spSuffix,
                       code := .ok, inflight := none }) ∧
      (∀ w, s.inflight = some w → s.spRate.toNat = 0 ∨ 199 < s.spRate.toNat →
        exec .kinit s = .next (endsWithError s w .cfg))

/-- R80: KABS absorbs bytes 0 to N - 1 of DIN one after the other, permuting whenever the block is full: lanes `l b` and
position `q b` before byte b. In the SQUEEZE phase it ends with PHASE. -/
def Obligations.KabsAbsorbsBytesInOrder : Prop :=
  ∀ n : Nat, 1 ≤ n → n ≤ 8 →
    (encode (.kabs n)).toNat = 0x02 + 2 ^ 8 * n ∧
    ∀ s : State,
      (s.SpongeLegal → s.phase = .absorb →
        ∃ (t : State) (l : Nat → Lanes) (q : Nat → Nat), exec (.kabs n) s = .next t ∧
          l 0 = s.lanes ∧ q 0 = s.pos.toNat ∧
          (∀ b, b < n →
            if q b + 1 = s.arate.toNat then
              l (b + 1) = keccakF (xorStateByte (l b) (q b) (s.din.extractLsb' (8 * b) 8)) ∧ q (b + 1) = 0
            else
              l (b + 1) = xorStateByte (l b) (q b) (s.din.extractLsb' (8 * b) 8) ∧ q (b + 1) = q b + 1) ∧
          t.pos.toNat = q n ∧ t = { s with lanes := l n, pos := t.pos, code := .ok, inflight := none }) ∧
      (∀ w, s.inflight = some w → s.phase = .squeeze →
        exec (.kabs n) s = .next (endsWithError s w .phase))

/-- R81: KFIN pads, permutes and enters the squeeze phase. In the SQUEEZE phase it ends with PHASE. -/
def Obligations.KfinPadsAndPermutes : Prop :=
  encode .kfin = 0x00000003 ∧
    ∀ s : State,
      (s.phase = .absorb →
        exec .kfin s = .next { s with
          lanes := keccakF (xorStateByte (xorStateByte s.lanes s.pos.toNat s.asuffix) (s.arate.toNat - 1) 0x80)
          pos := 0, phase := .squeeze, code := .ok, inflight := none }) ∧
      (∀ w, s.inflight = some w → s.phase = .squeeze → exec .kfin s = .next (endsWithError s w .phase))

/-- R82: what KFIN permutes is the state with ASUFFIX XORed at byte POS and 0x80 at byte ARATE - 1, both on one byte when
they meet, every other byte as it was. -/
def Obligations.PaddingXorsTwoBytes : Prop :=
  ∀ s : State, s.SpongeLegal → s.phase = .absorb →
    ∃ (t : State) (x : Lanes), exec .kfin s = .next t ∧ t.lanes = keccakF x ∧
      ∀ j : Fin 200, stateByte x j = stateByte s.lanes j ^^^ (if j.val = s.pos.toNat then s.asuffix else 0) ^^^
        (if j.val = s.arate.toNat - 1 then 0x80 else 0)

/-- R83: KSQZ puts the next N state bytes into DOUT, permuting before a byte when the block is used up: lanes `l b` and
position `q b` before byte b; DOUT's other bytes are 0. In the ABSORB phase it ends with PHASE. -/
def Obligations.KsqzSqueezesBytesInOrder : Prop :=
  ∀ n : Nat, 1 ≤ n → n ≤ 8 →
    (encode (.ksqz n)).toNat = 0x04 + 2 ^ 8 * n ∧
    ∀ s : State,
      (s.SpongeLegal → s.phase = .squeeze →
        ∃ (t : State) (l : Nat → Lanes) (q : Nat → Nat), exec (.ksqz n) s = .next t ∧
          l 0 = s.lanes ∧ q 0 = s.pos.toNat ∧
          (∀ b, b < n →
            if q b = s.arate.toNat then
              l (b + 1) = keccakF (l b) ∧ q (b + 1) = 1 ∧ t.dout.extractLsb' (8 * b) 8 = stateByte (l (b + 1)) 0
            else
              l (b + 1) = l b ∧ q (b + 1) = q b + 1 ∧ t.dout.extractLsb' (8 * b) 8 = stateByte (l b) (q b)) ∧
          (∀ b, n ≤ b → b < 8 → t.dout.extractLsb' (8 * b) 8 = (0 : Byte)) ∧
          t.pos.toNat = q n ∧
          t = { s with lanes := l n, pos := t.pos, dout := t.dout, code := .ok, inflight := none }) ∧
      (∀ w, s.inflight = some w → s.phase = .absorb →
        exec (.ksqz n) s = .next (endsWithError s w .phase))

/-- R85: KINIT, KABS commands that feed the data in chunks of 1 to 8 bytes, KFIN and KSQZ commands give the output of the
source's block-wise sponge, from any state not locked by FATAL, for every legal rate, suffix, chunking and counts. -/
def Obligations.CommandsComputeTheSourceSponge : Prop :=
  ∀ (s : State) (r suffix : Byte) (chunks : List (List Byte)) (counts : List Nat),
    1 ≤ r.toNat → r.toNat ≤ 199 →
    (∀ c ∈ chunks, 1 ≤ c.length ∧ c.length ≤ 8) → (∀ n ∈ counts, 1 ≤ n ∧ n ≤ 8) →
    ∃ s₁ s₂ s₃ s₄ out,
      exec .kinit { s with spRate := r, spSuffix := suffix } = .next s₁ ∧
      feedChunks chunks s₁ = some s₂ ∧
      exec .kfin s₂ = .next s₃ ∧
      squeezeCounts counts s₃ = some (out, s₄) ∧
      out = sponge r.toNat chunks.flatten suffix counts.sum

/-! ## Field arithmetic (42_field.md) -/

/-- R90: FADD; RANGE when an operand is p or more. -/
def Obligations.FaddAddsModP : Prop :=
  ∀ (d a b : VReg), (encode (.fadd d a b)).toNat = 0x10 + 2 ^ 8 * d.val + 2 ^ 12 * a.val + 2 ^ 16 * b.val ∧
    ∀ s : State,
      (s.getV a < P_FIELD → s.getV b < P_FIELD →
        ∃ t, exec (.fadd d a b) s = .next t ∧ t.getV d = (s.getV a + s.getV b) % P_FIELD ∧
          (∀ i, i ≠ d → t.v[i] = s.v[i]) ∧ t = { s with v := t.v, code := .ok, inflight := none }) ∧
      (∀ w, s.inflight = some w → P_FIELD ≤ s.getV a ∨ P_FIELD ≤ s.getV b →
        exec (.fadd d a b) s = .next (endsWithError s w .range))

/-- R91: FSUB, the difference taken mod p over the integers. -/
def Obligations.FsubSubtractsModP : Prop :=
  ∀ (d a b : VReg), (encode (.fsub d a b)).toNat = 0x11 + 2 ^ 8 * d.val + 2 ^ 12 * a.val + 2 ^ 16 * b.val ∧
    ∀ s : State,
      (s.getV a < P_FIELD → s.getV b < P_FIELD →
        ∃ t, exec (.fsub d a b) s = .next t ∧
          (t.getV d : Int) = ((s.getV a : Int) - (s.getV b : Int)) % (P_FIELD : Int) ∧
          (∀ i, i ≠ d → t.v[i] = s.v[i]) ∧ t = { s with v := t.v, code := .ok, inflight := none }) ∧
      (∀ w, s.inflight = some w → P_FIELD ≤ s.getV a ∨ P_FIELD ≤ s.getV b →
        exec (.fsub d a b) s = .next (endsWithError s w .range))

/-- R92: FMUL. -/
def Obligations.FmulMultipliesModP : Prop :=
  ∀ (d a b : VReg), (encode (.fmul d a b)).toNat = 0x12 + 2 ^ 8 * d.val + 2 ^ 12 * a.val + 2 ^ 16 * b.val ∧
    ∀ s : State,
      (s.getV a < P_FIELD → s.getV b < P_FIELD →
        ∃ t, exec (.fmul d a b) s = .next t ∧ t.getV d = (s.getV a * s.getV b) % P_FIELD ∧
          (∀ i, i ≠ d → t.v[i] = s.v[i]) ∧ t = { s with v := t.v, code := .ok, inflight := none }) ∧
      (∀ w, s.inflight = some w → P_FIELD ≤ s.getV a ∨ P_FIELD ≤ s.getV b →
        exec (.fmul d a b) s = .next (endsWithError s w .range))

/-- R93: FINV gives a^(p-2) mod p; RANGE when a ≥ p, INV_ZERO when a = 0. -/
def Obligations.FinvIsTheFermatPower : Prop :=
  ∀ (d a : VReg), (encode (.finv d a)).toNat = 0x13 + 2 ^ 8 * d.val + 2 ^ 12 * a.val ∧
    ∀ s : State,
      (0 < s.getV a → s.getV a < P_FIELD →
        ∃ t, exec (.finv d a) s = .next t ∧ t.getV d = s.getV a ^ (P_FIELD - 2) % P_FIELD ∧
          (∀ i, i ≠ d → t.v[i] = s.v[i]) ∧ t = { s with v := t.v, code := .ok, inflight := none }) ∧
      (∀ w, s.inflight = some w → P_FIELD ≤ s.getV a → exec (.finv d a) s = .next (endsWithError s w .range)) ∧
      (∀ w, s.inflight = some w → s.getV a = 0 → exec (.finv d a) s = .next (endsWithError s w .invZero))

/-- R94: the result of FINV is the unique field element whose product with the operand is 1 mod p. -/
def Obligations.FinvGivesTheUniqueInverse : Prop :=
  ∀ (d a : VReg) (s : State), 0 < s.getV a → s.getV a < P_FIELD →
    ∃ t, exec (.finv d a) s = .next t ∧
      ∀ b : Nat, b < P_FIELD → (s.getV a * b % P_FIELD = 1 ↔ b = t.getV d)

/-- R88: every result of a field command is a field element, so a legal operand for the next one. -/
def Obligations.FieldResultsAreElements : Prop :=
  ∀ (i : Instr) (d : VReg) (s t : State),
    ((∃ a, i = .finv d a) ∨ ∃ a b, i = .fadd d a b ∨ i = .fsub d a b ∨ i = .fmul d a b) →
    exec i s = .next t → t.code = .ok → t.getV d < P_FIELD

/-! ## Points (43_point.md, 10_state.md R19 to R21) -/

/-- R20 and R21: a point register reads as Inf when its flag is 1, whatever the coordinates, else as its two V
registers; writing one sets both coordinates and the flag, zeros for Inf, and reads back. -/
def Obligations.PointRegisterReadsAndWrites : Prop :=
  ∀ (s : State) (j : PReg),
    (s.inf[j] = true → s.getP j = .inf) ∧
    (s.inf[j] = false → s.getP j = .aff (s.getV ⟨2 * j.val, by omega⟩) (s.getV ⟨2 * j.val + 1, by omega⟩)) ∧
    ((s.setP j .inf).getV ⟨2 * j.val, by omega⟩ = 0 ∧ (s.setP j .inf).getV ⟨2 * j.val + 1, by omega⟩ = 0 ∧
      (s.setP j .inf).inf[j] = true) ∧
    (∀ x y, x < 2 ^ 256 → y < 2 ^ 256 →
      (s.setP j (.aff x y)).getV ⟨2 * j.val, by omega⟩ = x ∧
      (s.setP j (.aff x y)).getV ⟨2 * j.val + 1, by omega⟩ = y ∧ (s.setP j (.aff x y)).inf[j] = false)

/-- R95: the group law, case by case, the formulas over the integers. -/
def Obligations.EcaddIsTheGroupLaw : Prop :=
  (∀ q, ecadd .inf q = .ok q) ∧ (∀ q, ecadd q .inf = .ok q) ∧
    ∀ x1 y1 x2 y2 : Nat, x1 < P_FIELD → y1 < P_FIELD → x2 < P_FIELD → y2 < P_FIELD →
      (x1 = x2 → (y1 + y2) % P_FIELD = 0 → ecadd (.aff x1 y1) (.aff x2 y2) = .ok .inf) ∧
      (x1 = x2 → (y1 + y2) % P_FIELD ≠ 0 → y1 ≠ y2 →
        ecadd (.aff x1 y1) (.aff x2 y2) = .error .invZero) ∧
      (x1 ≠ x2 ∨ (y1 = y2 ∧ (y1 + y2) % P_FIELD ≠ 0) →
        ∃ m x3 y3 : Nat, ecadd (.aff x1 y1) (.aff x2 y2) = .ok (.aff x3 y3) ∧
          (x1 = x2 → (m : Int) = 3 * (x1 : Int) ^ 2 * ((2 * y1 % P_FIELD) ^ (P_FIELD - 2) : Nat) % P_FIELD) ∧
          (x1 ≠ x2 → (m : Int) = ((y2 : Int) - y1) *
            (((((x2 : Int) - x1) % P_FIELD).toNat ^ (P_FIELD - 2) : Nat) : Int) % P_FIELD) ∧
          (x3 : Int) = ((m : Int) ^ 2 - x1 - x2) % P_FIELD ∧
          (y3 : Int) = ((m : Int) * ((x1 : Int) - x3) - y1) % P_FIELD)

/-- R98: the group law on the curve never fails and stays on the curve, and doubling a point of the curve other than Inf
never gives Inf: the spec's general knowledge ("This is the elliptic-curve group law"). -/
def Obligations.EcaddStaysOnTheCurve : Prop :=
  (∀ q q' : Point, q.OnCurve → q'.OnCurve → ∃ r, ecadd q q' = .ok r ∧ r.OnCurve) ∧
    ∀ x y : Nat, (Point.aff x y).OnCurve → y ≠ 0 ∧ ecadd (.aff x y) (.aff x y) ≠ .ok .inf

/-- R99: PADD; RANGE for a coordinate of p or more, INV_ZERO for a zero denominator. -/
def Obligations.PaddAddsPoints : Prop :=
  ∀ (d a b : PReg), (encode (.padd d a b)).toNat = 0x20 + 2 ^ 8 * d.val + 2 ^ 12 * a.val + 2 ^ 16 * b.val ∧
    ∀ s : State,
      (∀ r, (s.getP a).inRange = true → (s.getP b).inRange = true → ecadd (s.getP a) (s.getP b) = .ok r →
        ∃ t, exec (.padd d a b) s = .next t ∧ t.getP d = r ∧
          (r = .inf → t.getV ⟨2 * d.val, by omega⟩ = 0 ∧ t.getV ⟨2 * d.val + 1, by omega⟩ = 0) ∧
          (∀ i : VReg, i.val / 2 ≠ d.val → t.v[i] = s.v[i]) ∧ (∀ j, j ≠ d → t.inf[j] = s.inf[j]) ∧
          t = { s with v := t.v, inf := t.inf, code := .ok, inflight := none }) ∧
      (∀ w, s.inflight = some w → (s.getP a).inRange = false ∨ (s.getP b).inRange = false →
        exec (.padd d a b) s = .next (endsWithError s w .range)) ∧
      (∀ w c, s.inflight = some w → (s.getP a).inRange = true → (s.getP b).inRange = true →
        ecadd (s.getP a) (s.getP b) = .error c → exec (.padd d a b) s = .next (endsWithError s w .invZero))

/-- R100: PDBL of a point in range always completes with P + P: INV_ZERO cannot arise, the spec's inference from R95 and R96. -/
def Obligations.PdblDoublesPoints : Prop :=
  ∀ (d a : PReg), (encode (.pdbl d a)).toNat = 0x21 + 2 ^ 8 * d.val + 2 ^ 12 * a.val ∧
    ∀ s : State,
      ((s.getP a).inRange = true →
        ∃ t r, ecadd (s.getP a) (s.getP a) = .ok r ∧ exec (.pdbl d a) s = .next t ∧ t.getP d = r ∧
          (r = .inf → t.getV ⟨2 * d.val, by omega⟩ = 0 ∧ t.getV ⟨2 * d.val + 1, by omega⟩ = 0) ∧
          (∀ i : VReg, i.val / 2 ≠ d.val → t.v[i] = s.v[i]) ∧ (∀ j, j ≠ d → t.inf[j] = s.inf[j]) ∧
          t = { s with v := t.v, inf := t.inf, code := .ok, inflight := none }) ∧
      (∀ w, s.inflight = some w → (s.getP a).inRange = false →
        exec (.pdbl d a) s = .next (endsWithError s w .range))

/-- R97: a point is refused exactly when it is not Inf and a coordinate is p or more; the coordinates of a point whose
flag is 1 are not checked. -/
def Obligations.PointRangeCheck : Prop :=
  ∀ (s : State) (j : PReg), (s.getP j).inRange = false ↔
    s.inf[j] = false ∧ (P_FIELD ≤ s.getV ⟨2 * j.val, by omega⟩ ∨ P_FIELD ≤ s.getV ⟨2 * j.val + 1, by omega⟩)

/-! ## Scalar multiplication (44_scalar_mult.md) -/

/-- R105 and R102: PMULG as its pseudocode has it: SCALAR for k = 0 or k ≥ n, else the end of the command by the result r of
scalarMulG(k); and that end for every r: P[D] <- r for a point, INV_ZERO for a failed addition, INVARIANT with FATAL for
Inf (the last two are "unreachable": R104). -/
def Obligations.PmulgFollowsItsPseudocode : Prop :=
  ∀ (d : PReg) (a : VReg), (encode (.pmulg d a)).toNat = 0x22 + 2 ^ 8 * d.val + 2 ^ 12 * a.val ∧
    ∀ (s : State) (w : Word), s.inflight = some w →
      (s.getV a = 0 ∨ N_ORDER ≤ s.getV a → exec (.pmulg d a) s = .next (endsWithError s w .scalar)) ∧
      (1 ≤ s.getV a → s.getV a < N_ORDER →
        exec (.pmulg d a) s = s.finish (writeMultiple d (scalarMulG (s.getV a)) s)) ∧
      (∀ x y, x < 2 ^ 256 → y < 2 ^ 256 →
        ∃ t, s.finish (writeMultiple d (.ok (.aff x y)) s) = .next t ∧ t.getV ⟨2 * d.val, by omega⟩ = x ∧
          t.getV ⟨2 * d.val + 1, by omega⟩ = y ∧ t.inf[d] = false ∧
          (∀ i : VReg, i.val / 2 ≠ d.val → t.v[i] = s.v[i]) ∧ (∀ j, j ≠ d → t.inf[j] = s.inf[j]) ∧
          t = { s with v := t.v, inf := t.inf, code := .ok, inflight := none }) ∧
      s.finish (writeMultiple d (.error .invZero) s) = .next (endsWithError s w .invZero) ∧
      s.finish (writeMultiple d (.ok .inf) s) = .next { endsWithError s w .invariant with fatal := true }

/-- R104: for 1 ≤ k < n, scalarMulG(k) is the k-fold sum of G, a point of the curve that is not Inf; so PMULG completes
with OK for every valid scalar. -/
def Obligations.PmulgGivesTheMultipleOfG : Prop :=
  ∀ k : Nat, 1 ≤ k → k < N_ORDER →
    ∃ x y : Nat, scalarMulG k = .ok (.aff x y) ∧ repeatedSum k = .ok (.aff x y) ∧ (Point.aff x y).OnCurve ∧
      ∀ (d : PReg) (a : VReg) (s : State), s.getV a = k →
        ∃ t, exec (.pmulg d a) s = .next t ∧ t.code = .ok ∧ t.getP d = .aff x y

/-- With the constants of the spec FATAL never becomes 1: no step sets it (95_test_vectors.md T-M18, R104). -/
def Obligations.FatalIsNeverSet : Prop :=
  ∀ s t : State, s.fatal = false → step s = .next t → t.fatal = false

/-! ## The host port (20_memory.md; 70_reset_and_hazards.md R127, R128) -/

/-- R38 and R37: which word of which register each address is, least significant word first. -/
def Obligations.RegisterMapWords : Prop :=
  ∀ s : State,
    (∀ i : Fin 25, idleRead s (BitVec.ofNat 12 (0x100 + 8 * i.val)) = s.lanes[i].extractLsb' 0 32 ∧
      idleRead s (BitVec.ofNat 12 (0x104 + 8 * i.val)) = s.lanes[i].extractLsb' 32 32) ∧
    (∀ (i : VReg) (j : Fin 8), (idleRead s (BitVec.ofNat 12 (0x200 + 32 * i.val + 4 * j.val))).toNat =
      s.getV i / 2 ^ (32 * j.val) % 2 ^ 32) ∧
    idleRead s 0x018 = s.din.extractLsb' 0 32 ∧ idleRead s 0x01C = s.din.extractLsb' 32 32 ∧
    idleRead s 0x020 = s.dout.extractLsb' 0 32 ∧ idleRead s 0x024 = s.dout.extractLsb' 32 32 ∧
    (∀ j : PReg, (idleRead s 0x400).getLsbD j.val = s.inf[j]) ∧
    idleRead s 0x004 = statusWord s ∧ idleRead s 0x00C = s.errcmd ∧ idleRead s 0x010 = spcfgWord s ∧
    idleRead s 0x014 = spstatWord s

/-- R24: the fields of STATUS. -/
def Obligations.StatusFields : Prop :=
  ∀ s : State, bits (statusWord s) 0 0 = s.busy.toNat ∧ bits (statusWord s) 1 1 = s.fatal.toNat ∧
    bits (statusWord s) 2 2 = s.sticky.toNat ∧ bits (statusWord s) 3 3 = s.ovr.toNat ∧
    bits (statusWord s) 7 4 = 0 ∧ bits (statusWord s) 15 8 = s.code.toByte.toNat ∧
    bits (statusWord s) 31 16 = 0

/-- R28: the fields of SPSTAT, read-only at 0x014, and its reset value. -/
def Obligations.SpstatFields : Prop :=
  ∀ s : State, bits (spstatWord s) 7 0 = s.pos.toNat ∧
    bits (spstatWord s) 8 8 = (if s.phase = .squeeze then 1 else 0) ∧ bits (spstatWord s) 15 9 = 0 ∧
    bits (spstatWord s) 23 16 = s.arate.toNat ∧ bits (spstatWord s) 31 24 = s.asuffix.toNat ∧
    idleRead s 0x014 = spstatWord s ∧ (∀ v, hostWrite s 0x014 v = .next s) ∧
    spstatWord State.reset = 0x01880000

/-- R44: a host access whose address has addr[1:0] ≠ 0 is refused. -/
def Obligations.MisalignedAccessIsRefused : Prop :=
  ∀ (s : State) (a : Addr), bits a 1 0 ≠ 0 →
    hostRead s a = .refused .misalignedAccess ∧ ∀ v, hostWrite s a v = .refused .misalignedAccess

/-- R46: a read changes no register; an idle read answers the register's word. -/
def Obligations.ReadsHaveNoSideEffect : Prop :=
  ∀ (s : State) (a : Addr), bits a 1 0 = 0 →
    (∃ t, hostRead s a = .next t ∧ s.SameBlock t ∧ t.events = s.events) ∧
    (s.inflight = none → hostRead s a = .next { s with readLog := (a, idleRead s a) :: s.readLog })

/-- R39: reserved addresses read 0 and ignore writes, busy or not; reserved bits read 0 and writing them has no effect. -/
def Obligations.ReservedReadsZeroIgnoresWrites : Prop :=
  ∀ s : State,
    (∀ (a : Addr) (v : Word), bits a 1 0 = 0 →
      (0x028 ≤ a.toNat ∧ a.toNat ≤ 0x0FC) ∨ (0x1C8 ≤ a.toNat ∧ a.toNat ≤ 0x1FC) ∨ 0x404 ≤ a.toNat →
      hostRead s a = .next { s with readLog := (a, 0) :: s.readLog } ∧ hostWrite s a v = .next s) ∧
    bits (statusWord s) 7 4 = 0 ∧ bits (statusWord s) 31 16 = 0 ∧ bits (spcfgWord s) 31 16 = 0 ∧
    bits (spstatWord s) 15 9 = 0 ∧ bits (infWord s) 31 8 = 0 ∧
    ∀ v : Word, hostWrite s 0x010 v = hostWrite s 0x010 (v &&& 0x0000FFFF) ∧
      hostWrite s 0x400 v = hostWrite s 0x400 (v &&& 0x000000FF) ∧
      hostWrite s 0x008 v = hostWrite s 0x008 (v &&& 0x00000003)

/-- R40: writes to read-only addresses are ignored, busy or not; CMD and CTRL read 0. -/
def Obligations.ReadOnlyIgnoresWrites : Prop :=
  ∀ s : State,
    (∀ a ∈ [(0x004 : Addr), 0x00C, 0x014, 0x020, 0x024], ∀ v, hostWrite s a v = .next s) ∧
    ∀ a ∈ [(0x000 : Addr), 0x008], hostRead s a = .next { s with readLog := (a, 0) :: s.readLog }

/-- R37, R46: an idle host write to a register that only stores changes that word alone: every other word reads as
before, and a read-write word reads back what was written, its reserved bits as 0. -/
def Obligations.HostWriteStoresOneWord : Prop :=
  ∀ (s : State) (a : Addr) (v : Word), s.inflight = none → bits a 1 0 = 0 → a ≠ 0x000 → a ≠ 0x008 →
    ∃ t, hostWrite s a v = .next t ∧
      (∀ b : Addr, bits b 1 0 = 0 → b ≠ a → idleRead t b = idleRead s b) ∧
      ((0x100 ≤ a.toNat ∧ a.toNat < 0x1C8) ∨ (0x200 ≤ a.toNat ∧ a.toNat < 0x400) ∨ a = 0x018 ∨ a = 0x01C →
        idleRead t a = v) ∧
      (a = 0x010 → idleRead t a = v &&& 0x0000FFFF) ∧ (a = 0x400 → idleRead t a = v &&& 0x000000FF)

/-- R25: CTRL.CLR clears STICKY and OVR and nothing else, SRST resets and wins, writing 0 does nothing; busy or idle. -/
def Obligations.CtrlClearsOrResets : Prop :=
  ∀ (s : State) (v : Word),
    (v.getLsbD 1 = true → hostWrite s 0x008 v = .next s.blockReset) ∧
    (v.getLsbD 1 = false → v.getLsbD 0 = true → hostWrite s 0x008 v = .next { s with sticky := false, ovr := false }) ∧
    (v.getLsbD 1 = false → v.getLsbD 0 = false → hostWrite s 0x008 v = .next s) ∧
    hostRead s 0x008 = .next { s with readLog := (0x008, 0) :: s.readLog }

/-- R128: a host write while BUSY = 1 is dropped and sets OVR, but for CTRL, which is performed, and the read-only and
reserved addresses, which ignore it. -/
def Obligations.BusyWritesAreDropped : Prop :=
  ∀ (s : State) (a : Addr) (v : Word), s.busy = true → bits a 1 0 = 0 →
    (a = 0x000 ∨ a = 0x010 ∨ a = 0x018 ∨ a = 0x01C ∨ (0x100 ≤ a.toNat ∧ a.toNat ≤ 0x1C4) ∨
        (0x200 ≤ a.toNat ∧ a.toNat ≤ 0x400) →
      hostWrite s a v = .next { s with ovr := true }) ∧
    (a = 0x008 → (v.getLsbD 1 = true → hostWrite s a v = .next s.blockReset) ∧
      (v.getLsbD 1 = false → v.getLsbD 0 = true → hostWrite s a v = .next { s with sticky := false, ovr := false }) ∧
      (v.getLsbD 1 = false → v.getLsbD 0 = false → hostWrite s a v = .next s)) ∧
    (a = 0x004 ∨ a = 0x00C ∨ a = 0x014 ∨ (0x020 ≤ a.toNat ∧ a.toNat ≤ 0x0FC) ∨
        (0x1C8 ≤ a.toNat ∧ a.toNat ≤ 0x1FC) ∨ 0x404 ≤ a.toNat →
      hostWrite s a v = .next s)

/-- R127: host reads while BUSY = 1: STATUS, SPCFG and DIN as they are, 0 from CMD, CTRL and reserved addresses, and
from the engine-written registers the next free value, whatever it is, a fresh one for each read; no other effect.
The counter of the draws is the model's (log entry 4). -/
def Obligations.BusyReads : Prop :=
  ∀ (s : State) (a : Addr), s.busy = true → bits a 1 0 = 0 →
    (a = 0x004 ∨ a = 0x010 ∨ a = 0x018 ∨ a = 0x01C →
      hostRead s a = .next { s with readLog := (a, idleRead s a) :: s.readLog }) ∧
    (a = 0x000 ∨ a = 0x008 ∨ (0x028 ≤ a.toNat ∧ a.toNat ≤ 0x0FC) ∨ (0x1C8 ≤ a.toNat ∧ a.toNat ≤ 0x1FC) ∨
        0x404 ≤ a.toNat →
      hostRead s a = .next { s with readLog := (a, 0) :: s.readLog }) ∧
    (a = 0x00C ∨ a = 0x014 ∨ a = 0x020 ∨ a = 0x024 ∨ (0x100 ≤ a.toNat ∧ a.toNat ≤ 0x1C4) ∨
        (0x200 ≤ a.toNat ∧ a.toNat ≤ 0x400) →
      hostRead s a = .next { s with readLog := (a, Config.busyRead s.draws) :: s.readLog, draws := s.draws + 1 })
end

