-- ==== Sys2Proof/Laws/State.lean ====
section
/-! SUPPORT. What each named update of State leaves in each field, one lemma per field, so that no proof unfolds a
record update. -/

namespace Sys2Proof.Machine

/-! ## setV -/

@[simp] theorem State.setV_lanes (s : State) (i : VReg) (x : Nat) : (s.setV i x).lanes = s.lanes := rfl
@[simp] theorem State.setV_pos (s : State) (i : VReg) (x : Nat) : (s.setV i x).pos = s.pos := rfl
@[simp] theorem State.setV_phase (s : State) (i : VReg) (x : Nat) : (s.setV i x).phase = s.phase := rfl
@[simp] theorem State.setV_arate (s : State) (i : VReg) (x : Nat) : (s.setV i x).arate = s.arate := rfl
@[simp] theorem State.setV_asuffix (s : State) (i : VReg) (x : Nat) : (s.setV i x).asuffix = s.asuffix := rfl
@[simp] theorem State.setV_v (s : State) (i : VReg) (x : Nat) : (s.setV i x).v = s.v.set i (Big.ofNat x) := rfl
@[simp] theorem State.setV_inf (s : State) (i : VReg) (x : Nat) : (s.setV i x).inf = s.inf := rfl
@[simp] theorem State.setV_din (s : State) (i : VReg) (x : Nat) : (s.setV i x).din = s.din := rfl
@[simp] theorem State.setV_dout (s : State) (i : VReg) (x : Nat) : (s.setV i x).dout = s.dout := rfl
@[simp] theorem State.setV_fatal (s : State) (i : VReg) (x : Nat) : (s.setV i x).fatal = s.fatal := rfl
@[simp] theorem State.setV_sticky (s : State) (i : VReg) (x : Nat) : (s.setV i x).sticky = s.sticky := rfl
@[simp] theorem State.setV_ovr (s : State) (i : VReg) (x : Nat) : (s.setV i x).ovr = s.ovr := rfl
@[simp] theorem State.setV_code (s : State) (i : VReg) (x : Nat) : (s.setV i x).code = s.code := rfl
@[simp] theorem State.setV_errcmd (s : State) (i : VReg) (x : Nat) : (s.setV i x).errcmd = s.errcmd := rfl
@[simp] theorem State.setV_spRate (s : State) (i : VReg) (x : Nat) : (s.setV i x).spRate = s.spRate := rfl
@[simp] theorem State.setV_spSuffix (s : State) (i : VReg) (x : Nat) : (s.setV i x).spSuffix = s.spSuffix := rfl
@[simp] theorem State.setV_inflight (s : State) (i : VReg) (x : Nat) : (s.setV i x).inflight = s.inflight := rfl
@[simp] theorem State.setV_events (s : State) (i : VReg) (x : Nat) : (s.setV i x).events = s.events := rfl
@[simp] theorem State.setV_readLog (s : State) (i : VReg) (x : Nat) : (s.setV i x).readLog = s.readLog := rfl
@[simp] theorem State.setV_draws (s : State) (i : VReg) (x : Nat) : (s.setV i x).draws = s.draws := rfl

/-! ## setInf -/

@[simp] theorem State.setInf_lanes (s : State) (j : PReg) (b : Bool) : (s.setInf j b).lanes = s.lanes := rfl
@[simp] theorem State.setInf_pos (s : State) (j : PReg) (b : Bool) : (s.setInf j b).pos = s.pos := rfl
@[simp] theorem State.setInf_phase (s : State) (j : PReg) (b : Bool) : (s.setInf j b).phase = s.phase := rfl
@[simp] theorem State.setInf_arate (s : State) (j : PReg) (b : Bool) : (s.setInf j b).arate = s.arate := rfl
@[simp] theorem State.setInf_asuffix (s : State) (j : PReg) (b : Bool) : (s.setInf j b).asuffix = s.asuffix := rfl
@[simp] theorem State.setInf_v (s : State) (j : PReg) (b : Bool) : (s.setInf j b).v = s.v := rfl
@[simp] theorem State.setInf_inf (s : State) (j : PReg) (b : Bool) : (s.setInf j b).inf = s.inf.set j b := rfl
@[simp] theorem State.setInf_din (s : State) (j : PReg) (b : Bool) : (s.setInf j b).din = s.din := rfl
@[simp] theorem State.setInf_dout (s : State) (j : PReg) (b : Bool) : (s.setInf j b).dout = s.dout := rfl
@[simp] theorem State.setInf_fatal (s : State) (j : PReg) (b : Bool) : (s.setInf j b).fatal = s.fatal := rfl
@[simp] theorem State.setInf_sticky (s : State) (j : PReg) (b : Bool) : (s.setInf j b).sticky = s.sticky := rfl
@[simp] theorem State.setInf_ovr (s : State) (j : PReg) (b : Bool) : (s.setInf j b).ovr = s.ovr := rfl
@[simp] theorem State.setInf_code (s : State) (j : PReg) (b : Bool) : (s.setInf j b).code = s.code := rfl
@[simp] theorem State.setInf_errcmd (s : State) (j : PReg) (b : Bool) : (s.setInf j b).errcmd = s.errcmd := rfl
@[simp] theorem State.setInf_spRate (s : State) (j : PReg) (b : Bool) : (s.setInf j b).spRate = s.spRate := rfl
@[simp] theorem State.setInf_spSuffix (s : State) (j : PReg) (b : Bool) : (s.setInf j b).spSuffix = s.spSuffix := rfl
@[simp] theorem State.setInf_inflight (s : State) (j : PReg) (b : Bool) : (s.setInf j b).inflight = s.inflight := rfl
@[simp] theorem State.setInf_events (s : State) (j : PReg) (b : Bool) : (s.setInf j b).events = s.events := rfl
@[simp] theorem State.setInf_readLog (s : State) (j : PReg) (b : Bool) : (s.setInf j b).readLog = s.readLog := rfl
@[simp] theorem State.setInf_draws (s : State) (j : PReg) (b : Bool) : (s.setInf j b).draws = s.draws := rfl

/-! ## setP -/

@[simp] theorem State.setP_lanes (s : State) (j : PReg) (q : Point) : (s.setP j q).lanes = s.lanes := rfl
@[simp] theorem State.setP_pos (s : State) (j : PReg) (q : Point) : (s.setP j q).pos = s.pos := rfl
@[simp] theorem State.setP_phase (s : State) (j : PReg) (q : Point) : (s.setP j q).phase = s.phase := rfl
@[simp] theorem State.setP_arate (s : State) (j : PReg) (q : Point) : (s.setP j q).arate = s.arate := rfl
@[simp] theorem State.setP_asuffix (s : State) (j : PReg) (q : Point) : (s.setP j q).asuffix = s.asuffix := rfl
@[simp] theorem State.setP_v (s : State) (j : PReg) (q : Point) : (s.setP j q).v = (s.v.set (xReg j) (Big.ofNat q.coordinates.1)).set (yReg j) (Big.ofNat q.coordinates.2) := rfl
@[simp] theorem State.setP_inf (s : State) (j : PReg) (q : Point) : (s.setP j q).inf = s.inf.set j q.isInf := rfl
@[simp] theorem State.setP_din (s : State) (j : PReg) (q : Point) : (s.setP j q).din = s.din := rfl
@[simp] theorem State.setP_dout (s : State) (j : PReg) (q : Point) : (s.setP j q).dout = s.dout := rfl
@[simp] theorem State.setP_fatal (s : State) (j : PReg) (q : Point) : (s.setP j q).fatal = s.fatal := rfl
@[simp] theorem State.setP_sticky (s : State) (j : PReg) (q : Point) : (s.setP j q).sticky = s.sticky := rfl
@[simp] theorem State.setP_ovr (s : State) (j : PReg) (q : Point) : (s.setP j q).ovr = s.ovr := rfl
@[simp] theorem State.setP_code (s : State) (j : PReg) (q : Point) : (s.setP j q).code = s.code := rfl
@[simp] theorem State.setP_errcmd (s : State) (j : PReg) (q : Point) : (s.setP j q).errcmd = s.errcmd := rfl
@[simp] theorem State.setP_spRate (s : State) (j : PReg) (q : Point) : (s.setP j q).spRate = s.spRate := rfl
@[simp] theorem State.setP_spSuffix (s : State) (j : PReg) (q : Point) : (s.setP j q).spSuffix = s.spSuffix := rfl
@[simp] theorem State.setP_inflight (s : State) (j : PReg) (q : Point) : (s.setP j q).inflight = s.inflight := rfl
@[simp] theorem State.setP_events (s : State) (j : PReg) (q : Point) : (s.setP j q).events = s.events := rfl
@[simp] theorem State.setP_readLog (s : State) (j : PReg) (q : Point) : (s.setP j q).readLog = s.readLog := rfl
@[simp] theorem State.setP_draws (s : State) (j : PReg) (q : Point) : (s.setP j q).draws = s.draws := rfl

/-! ## complete -/

@[simp] theorem State.complete_lanes (s : State) (c : ResultCode) : (s.complete c).lanes = s.lanes := rfl
@[simp] theorem State.complete_pos (s : State) (c : ResultCode) : (s.complete c).pos = s.pos := rfl
@[simp] theorem State.complete_phase (s : State) (c : ResultCode) : (s.complete c).phase = s.phase := rfl
@[simp] theorem State.complete_arate (s : State) (c : ResultCode) : (s.complete c).arate = s.arate := rfl
@[simp] theorem State.complete_asuffix (s : State) (c : ResultCode) : (s.complete c).asuffix = s.asuffix := rfl
@[simp] theorem State.complete_v (s : State) (c : ResultCode) : (s.complete c).v = s.v := rfl
@[simp] theorem State.complete_inf (s : State) (c : ResultCode) : (s.complete c).inf = s.inf := rfl
@[simp] theorem State.complete_din (s : State) (c : ResultCode) : (s.complete c).din = s.din := rfl
@[simp] theorem State.complete_dout (s : State) (c : ResultCode) : (s.complete c).dout = s.dout := rfl
@[simp] theorem State.complete_fatal (s : State) (c : ResultCode) : (s.complete c).fatal = fatalAfter c s.fatal := rfl
@[simp] theorem State.complete_sticky (s : State) (c : ResultCode) : (s.complete c).sticky = stickyAfter c s.sticky := rfl
@[simp] theorem State.complete_ovr (s : State) (c : ResultCode) : (s.complete c).ovr = s.ovr := rfl
@[simp] theorem State.complete_code (s : State) (c : ResultCode) : (s.complete c).code = c := rfl
@[simp] theorem State.complete_errcmd (s : State) (c : ResultCode) : (s.complete c).errcmd = if c = .ok then s.errcmd else s.commandWord := rfl
@[simp] theorem State.complete_spRate (s : State) (c : ResultCode) : (s.complete c).spRate = s.spRate := rfl
@[simp] theorem State.complete_spSuffix (s : State) (c : ResultCode) : (s.complete c).spSuffix = s.spSuffix := rfl
@[simp] theorem State.complete_inflight (s : State) (c : ResultCode) : (s.complete c).inflight = none := rfl
@[simp] theorem State.complete_events (s : State) (c : ResultCode) : (s.complete c).events = s.events := rfl
@[simp] theorem State.complete_readLog (s : State) (c : ResultCode) : (s.complete c).readLog = s.readLog := rfl
@[simp] theorem State.complete_draws (s : State) (c : ResultCode) : (s.complete c).draws = s.draws := rfl

/-! ## clearFlags -/

@[simp] theorem State.clearFlags_lanes (s : State) : s.clearFlags.lanes = s.lanes := rfl
@[simp] theorem State.clearFlags_pos (s : State) : s.clearFlags.pos = s.pos := rfl
@[simp] theorem State.clearFlags_phase (s : State) : s.clearFlags.phase = s.phase := rfl
@[simp] theorem State.clearFlags_arate (s : State) : s.clearFlags.arate = s.arate := rfl
@[simp] theorem State.clearFlags_asuffix (s : State) : s.clearFlags.asuffix = s.asuffix := rfl
@[simp] theorem State.clearFlags_v (s : State) : s.clearFlags.v = s.v := rfl
@[simp] theorem State.clearFlags_inf (s : State) : s.clearFlags.inf = s.inf := rfl
@[simp] theorem State.clearFlags_din (s : State) : s.clearFlags.din = s.din := rfl
@[simp] theorem State.clearFlags_dout (s : State) : s.clearFlags.dout = s.dout := rfl
@[simp] theorem State.clearFlags_fatal (s : State) : s.clearFlags.fatal = s.fatal := rfl
@[simp] theorem State.clearFlags_sticky (s : State) : s.clearFlags.sticky = false := rfl
@[simp] theorem State.clearFlags_ovr (s : State) : s.clearFlags.ovr = false := rfl
@[simp] theorem State.clearFlags_code (s : State) : s.clearFlags.code = s.code := rfl
@[simp] theorem State.clearFlags_errcmd (s : State) : s.clearFlags.errcmd = s.errcmd := rfl
@[simp] theorem State.clearFlags_spRate (s : State) : s.clearFlags.spRate = s.spRate := rfl
@[simp] theorem State.clearFlags_spSuffix (s : State) : s.clearFlags.spSuffix = s.spSuffix := rfl
@[simp] theorem State.clearFlags_inflight (s : State) : s.clearFlags.inflight = s.inflight := rfl
@[simp] theorem State.clearFlags_events (s : State) : s.clearFlags.events = s.events := rfl
@[simp] theorem State.clearFlags_readLog (s : State) : s.clearFlags.readLog = s.readLog := rfl
@[simp] theorem State.clearFlags_draws (s : State) : s.clearFlags.draws = s.draws := rfl

/-! ## blockReset -/

@[simp] theorem State.blockReset_lanes (s : State) : s.blockReset.lanes = State.reset.lanes := rfl
@[simp] theorem State.blockReset_pos (s : State) : s.blockReset.pos = State.reset.pos := rfl
@[simp] theorem State.blockReset_phase (s : State) : s.blockReset.phase = State.reset.phase := rfl
@[simp] theorem State.blockReset_arate (s : State) : s.blockReset.arate = State.reset.arate := rfl
@[simp] theorem State.blockReset_asuffix (s : State) : s.blockReset.asuffix = State.reset.asuffix := rfl
@[simp] theorem State.blockReset_v (s : State) : s.blockReset.v = freshV s.draws := rfl
@[simp] theorem State.blockReset_inf (s : State) : s.blockReset.inf = freshInf s.draws := rfl
@[simp] theorem State.blockReset_din (s : State) : s.blockReset.din = State.reset.din := rfl
@[simp] theorem State.blockReset_dout (s : State) : s.blockReset.dout = State.reset.dout := rfl
@[simp] theorem State.blockReset_fatal (s : State) : s.blockReset.fatal = State.reset.fatal := rfl
@[simp] theorem State.blockReset_sticky (s : State) : s.blockReset.sticky = State.reset.sticky := rfl
@[simp] theorem State.blockReset_ovr (s : State) : s.blockReset.ovr = State.reset.ovr := rfl
@[simp] theorem State.blockReset_code (s : State) : s.blockReset.code = State.reset.code := rfl
@[simp] theorem State.blockReset_errcmd (s : State) : s.blockReset.errcmd = State.reset.errcmd := rfl
@[simp] theorem State.blockReset_spRate (s : State) : s.blockReset.spRate = State.reset.spRate := rfl
@[simp] theorem State.blockReset_spSuffix (s : State) : s.blockReset.spSuffix = State.reset.spSuffix := rfl
@[simp] theorem State.blockReset_inflight (s : State) : s.blockReset.inflight = State.reset.inflight := rfl
@[simp] theorem State.blockReset_events (s : State) : s.blockReset.events = s.events := rfl
@[simp] theorem State.blockReset_readLog (s : State) : s.blockReset.readLog = s.readLog := rfl
@[simp] theorem State.blockReset_draws (s : State) : s.blockReset.draws = s.draws + 1 := rfl

/-! ## issue -/

@[simp] theorem State.issue_lanes (s : State) (w : Word) : (s.issue w).lanes = s.lanes := rfl
@[simp] theorem State.issue_pos (s : State) (w : Word) : (s.issue w).pos = s.pos := rfl
@[simp] theorem State.issue_phase (s : State) (w : Word) : (s.issue w).phase = s.phase := rfl
@[simp] theorem State.issue_arate (s : State) (w : Word) : (s.issue w).arate = s.arate := rfl
@[simp] theorem State.issue_asuffix (s : State) (w : Word) : (s.issue w).asuffix = s.asuffix := rfl
@[simp] theorem State.issue_v (s : State) (w : Word) : (s.issue w).v = s.v := rfl
@[simp] theorem State.issue_inf (s : State) (w : Word) : (s.issue w).inf = s.inf := rfl
@[simp] theorem State.issue_din (s : State) (w : Word) : (s.issue w).din = s.din := rfl
@[simp] theorem State.issue_dout (s : State) (w : Word) : (s.issue w).dout = s.dout := rfl
@[simp] theorem State.issue_fatal (s : State) (w : Word) : (s.issue w).fatal = s.fatal := rfl
@[simp] theorem State.issue_sticky (s : State) (w : Word) : (s.issue w).sticky = s.sticky := rfl
@[simp] theorem State.issue_ovr (s : State) (w : Word) : (s.issue w).ovr = s.ovr := rfl
@[simp] theorem State.issue_code (s : State) (w : Word) : (s.issue w).code = s.code := rfl
@[simp] theorem State.issue_errcmd (s : State) (w : Word) : (s.issue w).errcmd = s.errcmd := rfl
@[simp] theorem State.issue_spRate (s : State) (w : Word) : (s.issue w).spRate = s.spRate := rfl
@[simp] theorem State.issue_spSuffix (s : State) (w : Word) : (s.issue w).spSuffix = s.spSuffix := rfl
@[simp] theorem State.issue_inflight (s : State) (w : Word) : (s.issue w).inflight = some w := rfl
@[simp] theorem State.issue_events (s : State) (w : Word) : (s.issue w).events = s.events := rfl
@[simp] theorem State.issue_readLog (s : State) (w : Word) : (s.issue w).readLog = s.readLog := rfl
@[simp] theorem State.issue_draws (s : State) (w : Word) : (s.issue w).draws = s.draws := rfl

/-! ## answer -/

@[simp] theorem State.answer_lanes (s : State) (a : Addr) (w : Word) : (s.answer a w).lanes = s.lanes := rfl
@[simp] theorem State.answer_pos (s : State) (a : Addr) (w : Word) : (s.answer a w).pos = s.pos := rfl
@[simp] theorem State.answer_phase (s : State) (a : Addr) (w : Word) : (s.answer a w).phase = s.phase := rfl
@[simp] theorem State.answer_arate (s : State) (a : Addr) (w : Word) : (s.answer a w).arate = s.arate := rfl
@[simp] theorem State.answer_asuffix (s : State) (a : Addr) (w : Word) : (s.answer a w).asuffix = s.asuffix := rfl
@[simp] theorem State.answer_v (s : State) (a : Addr) (w : Word) : (s.answer a w).v = s.v := rfl
@[simp] theorem State.answer_inf (s : State) (a : Addr) (w : Word) : (s.answer a w).inf = s.inf := rfl
@[simp] theorem State.answer_din (s : State) (a : Addr) (w : Word) : (s.answer a w).din = s.din := rfl
@[simp] theorem State.answer_dout (s : State) (a : Addr) (w : Word) : (s.answer a w).dout = s.dout := rfl
@[simp] theorem State.answer_fatal (s : State) (a : Addr) (w : Word) : (s.answer a w).fatal = s.fatal := rfl
@[simp] theorem State.answer_sticky (s : State) (a : Addr) (w : Word) : (s.answer a w).sticky = s.sticky := rfl
@[simp] theorem State.answer_ovr (s : State) (a : Addr) (w : Word) : (s.answer a w).ovr = s.ovr := rfl
@[simp] theorem State.answer_code (s : State) (a : Addr) (w : Word) : (s.answer a w).code = s.code := rfl
@[simp] theorem State.answer_errcmd (s : State) (a : Addr) (w : Word) : (s.answer a w).errcmd = s.errcmd := rfl
@[simp] theorem State.answer_spRate (s : State) (a : Addr) (w : Word) : (s.answer a w).spRate = s.spRate := rfl
@[simp] theorem State.answer_spSuffix (s : State) (a : Addr) (w : Word) : (s.answer a w).spSuffix = s.spSuffix := rfl
@[simp] theorem State.answer_inflight (s : State) (a : Addr) (w : Word) : (s.answer a w).inflight = s.inflight := rfl
@[simp] theorem State.answer_events (s : State) (a : Addr) (w : Word) : (s.answer a w).events = s.events := rfl
@[simp] theorem State.answer_readLog (s : State) (a : Addr) (w : Word) : (s.answer a w).readLog = (a, w) :: s.readLog := rfl
@[simp] theorem State.answer_draws (s : State) (a : Addr) (w : Word) : (s.answer a w).draws = s.draws := rfl

/-! ## Two small equations the updates rest on -/

@[simp] theorem stickyAfter_ok (b : Bool) : stickyAfter .ok b = b := by cases b <;> rfl

theorem stickyAfter_error {c : ResultCode} (h : c ≠ .ok) (b : Bool) : stickyAfter c b = true := by
  cases c <;> cases b <;> first | rfl | exact absurd rfl h

@[simp] theorem fatalAfter_ok (b : Bool) : fatalAfter .ok b = b := by cases b <;> rfl

theorem fatalAfter_eq_true (c : ResultCode) (b : Bool) : fatalAfter c b = true ↔ b = true ∨ c = .invariant := by
  cases c <;> cases b <;> decide

theorem State.commandWord_of_inflight {s : State} {w : Word} (h : s.inflight = some w) : s.commandWord = w := by
  simp [State.commandWord, h]

/-- A command that succeeds: its writes and completion. -/
theorem State.complete_ok (s : State) : s.complete .ok = { s with code := .ok, inflight := none } := by
  simp [State.complete]

/-- A command that ends with an error other than INVARIANT (60_exceptions.md R108, R109). -/
theorem State.complete_error {s : State} {w : Word} {c : ResultCode} (hw : s.inflight = some w) (hc : c ≠ .ok)
    (hi : c ≠ .invariant) : s.complete c = endsWithError s w c := by
  have hf : fatalAfter c s.fatal = s.fatal := by
    cases c <;> cases s.fatal <;> first | rfl | exact absurd rfl hi
  simp [State.complete, endsWithError, stickyAfter_error hc, hc, hf, State.commandWord_of_inflight hw]

@[simp] theorem State.finish_ok (s t : State) : s.finish (.ok t) = .next (t.complete .ok) := rfl

@[simp] theorem State.finish_error (s : State) (c : ResultCode) : s.finish (.error c) = .next (s.complete c) := rfl

end Sys2Proof.Machine
end

