-- ==== Sys2Proof/Laws/Operands.lean ====
section
/-! SUPPORT. V registers, point registers and bytes: what a read gives after a write. -/

namespace Sys2Proof.Machine

/-! ## V registers -/

@[simp] theorem Big.toNat_ofNat (x : Nat) : Big.toNat (Big.ofNat x) = x % 2 ^ 256 := by
  simp only [Big.toNat, Big.ofNat, Vector.getElem_ofFn, BitVec.toNat_ofNat]
  omega

theorem Big.toNat_lt (b : Big) : Big.toNat b < 2 ^ 256 := by
  have h := fun (j : Nat) (hj : j < 8) => (b[j]).isLt
  have h0 := h 0 (by omega); have h1 := h 1 (by omega); have h2 := h 2 (by omega); have h3 := h 3 (by omega)
  have h4 := h 4 (by omega); have h5 := h 5 (by omega); have h6 := h 6 (by omega); have h7 := h 7 (by omega)
  simp only [Big.toNat]
  omega

/-- Word j of a V register is bits 32j+31:32j of its value (20_memory.md R38). -/
theorem Big.word_eq (b : Big) (j : Fin 8) : (b[j]).toNat = Big.toNat b / 2 ^ (32 * j.val) % 2 ^ 32 := by
  have h := fun (j : Nat) (hj : j < 8) => (b[j]).isLt
  have h0 := h 0 (by omega); have h1 := h 1 (by omega); have h2 := h 2 (by omega); have h3 := h 3 (by omega)
  have h4 := h 4 (by omega); have h5 := h 5 (by omega); have h6 := h 6 (by omega); have h7 := h 7 (by omega)
  simp only [Big.toNat]
  fin_cases j <;> simp <;> omega

/-- A V register is the eight words of its value. -/
theorem Big.ofNat_toNat (b : Big) : Big.ofNat (Big.toNat b) = b := by
  apply Vector.ext
  intro j hj
  apply BitVec.eq_of_toNat_eq
  have := Big.word_eq b ⟨j, hj⟩
  simp only [Fin.getElem_fin] at this
  simp only [Big.ofNat, Vector.getElem_ofFn, BitVec.toNat_ofNat, this]

theorem State.getV_lt (s : State) (i : VReg) : s.getV i < 2 ^ 256 := Big.toNat_lt _

@[simp] theorem State.getV_setV_same (s : State) (i : VReg) (x : Nat) : (s.setV i x).getV i = x % 2 ^ 256 := by
  simp [State.getV]

theorem State.getV_setV_ne (s : State) {i j : VReg} (x : Nat) (h : i ≠ j) : (s.setV i x).getV j = s.getV j := by
  have h' : i.val ≠ j.val := fun e => h (Fin.ext e)
  simp [State.getV, Vector.getElem_set_ne, h']

theorem State.setV_ne (s : State) {i j : VReg} (x : Nat) (h : j ≠ i) : (s.setV i x).v[j] = s.v[j] := by
  have h' : i.val ≠ j.val := fun e => h (Fin.ext e.symm)
  simp [Vector.getElem_set_ne, h']

/-- Two states with the same V registers read the same values. -/
theorem State.getV_congr {s t : State} (h : s.v = t.v) (i : VReg) : s.getV i = t.getV i := by
  simp [State.getV, h]

/-! ## Point registers -/

theorem State.getP_congr {s t : State} (hv : s.v = t.v) (hi : s.inf = t.inf) (j : PReg) : s.getP j = t.getP j := by
  simp [State.getP, State.getV_congr hv, hi]

/-- Completion leaves every V and point register as it is. -/
@[simp] theorem State.getV_complete (s : State) (c : ResultCode) (i : VReg) : (s.complete c).getV i = s.getV i := rfl

@[simp] theorem State.getP_complete (s : State) (c : ResultCode) (j : PReg) : (s.complete c).getP j = s.getP j := rfl

theorem xReg_ne_yReg (i j : PReg) : xReg i ≠ yReg j := by
  intro h
  have := congrArg Fin.val h
  simp only [xReg, yReg] at this
  omega

/-- The coordinates of a point are 256-bit values. -/
def Point.Fits (q : Point) : Prop := q.coordinates.1 < 2 ^ 256 ∧ q.coordinates.2 < 2 ^ 256

theorem State.getV_setP_x (s : State) (j : PReg) {q : Point} (h : q.Fits) :
    (s.setP j q).getV (xReg j) = q.coordinates.1 := by
  have hn : (yReg j).val ≠ (xReg j).val := by simp [xReg, yReg]
  simp only [State.getV, State.setP_v, Fin.getElem_fin, Vector.getElem_set_ne _ _ hn, Vector.getElem_set_self,
    Big.toNat_ofNat]
  exact Nat.mod_eq_of_lt h.1

theorem State.getV_setP_y (s : State) (j : PReg) {q : Point} (h : q.Fits) :
    (s.setP j q).getV (yReg j) = q.coordinates.2 := by
  simp only [State.getV, State.setP_v, Fin.getElem_fin, Vector.getElem_set_self, Big.toNat_ofNat]
  exact Nat.mod_eq_of_lt h.2

/-- A point written to a register reads back (10_state.md R20, R21). -/
theorem State.getP_setP (s : State) (j : PReg) {q : Point} (h : q.Fits) : (s.setP j q).getP j = q := by
  rw [State.getP, State.getV_setP_x s j h, State.getV_setP_y s j h]
  cases q <;> simp [Point.isInf, Point.coordinates]

theorem State.setP_v_ne (s : State) (j : PReg) (q : Point) {i : VReg} (h : i.val / 2 ≠ j.val) :
    (s.setP j q).v[i] = s.v[i] := by
  have hx : (xReg j).val ≠ i.val := by simp only [xReg]; omega
  have hy : (yReg j).val ≠ i.val := by simp only [yReg]; omega
  simp [Vector.getElem_set_ne, hx, hy]

theorem State.setP_inf_ne (s : State) (j : PReg) (q : Point) {i : PReg} (h : i ≠ j) :
    (s.setP j q).inf[i] = s.inf[i] := by
  have h' : j.val ≠ i.val := fun e => h (Fin.ext e.symm)
  simp [Vector.getElem_set_ne, h']

/-! ## Bytes -/

/-- Byte b of the value made of a list of at most eight bytes (20_memory.md R42). -/
theorem byteOf_ofBytes (l : List Byte) (b : Nat) (hb : b < 8) : byteOf (ofBytes l) b = l.getD b 0 := by
  induction l generalizing b with
  | nil => simp [ofBytes, byteOf]
  | cons x rest ih =>
    cases b with
    | zero =>
      apply BitVec.eq_of_getLsbD_eq
      intro i hi
      simp [byteOf, ofBytes, hi]
      intro h; omega
    | succ b =>
      have := ih b (by omega)
      rw [List.getD_cons_succ, ← this]
      apply BitVec.eq_of_getLsbD_eq
      intro i hi
      have h1 : 8 * (b + 1) + i < 64 := by omega
      have h2 : ¬ 8 * (b + 1) + i < 8 := by omega
      have h3 : 8 * (b + 1) + i - 8 = 8 * b + i := by omega
      have h4 : x.getLsbD (8 * (b + 1) + i) = false := BitVec.getLsbD_of_ge x _ (by omega)
      simp only [byteOf, ofBytes, BitVec.getLsbD_extractLsb', BitVec.getLsbD_or, BitVec.getLsbD_shiftLeft,
        BitVec.getLsbD_setWidth, hi, h1, h2, h3, h4]
      simp

/-! ## Lanes -/

theorem laneAt_lt (l : Vector Lane 25) {i : Nat} (h : i < 25) : laneAt l i = l[i] := by
  simp [laneAt, h]

theorem laneAt_ge (l : Vector Lane 25) {i : Nat} (h : 25 ≤ i) : laneAt l i = 0 := by
  simp [laneAt, h]

theorem byteOf_xor (x y : BitVec 64) (b : Nat) : byteOf (x ^^^ y) b = byteOf x b ^^^ byteOf y b := by
  apply BitVec.eq_of_getLsbD_eq
  intro i hi
  simp [byteOf, hi]

/-- A byte moved to place k, read at place j. -/
theorem byteOf_shifted (b : Byte) {j k : Nat} (hj : j < 8) (hk : k < 8) :
    byteOf (b.setWidth 64 <<< (8 * k)) j = if j = k then b else 0 := by
  apply BitVec.eq_of_getLsbD_eq
  intro i hi
  have h1 : 8 * j + i < 64 := by omega
  by_cases h : j = k
  · subst h
    simp [byteOf, hi, h1]
  · simp [byteOf, hi, h1, h]
    intro h2
    exact BitVec.getLsbD_of_ge _ _ (by omega)

/-- XorStateByte changes the one byte it names (41_sponge.md R77). -/
theorem stateByte_xorStateByte (l : Vector Lane 25) {j k : Nat} (hj : j < 200) (hk : k < 200) (b : Byte) :
    stateByte (xorStateByte l j b) k = stateByte l k ^^^ (if k = j then b else 0) := by
  have hj' : j / 8 < 25 := by omega
  have hk' : k / 8 < 25 := by omega
  unfold stateByte
  rw [laneAt_lt _ hk', laneAt_lt _ hk']
  simp only [xorStateByte, laneAt_lt _ hj', Vector.getElem_setIfInBounds]
  by_cases hd : j / 8 = k / 8
  · rw [if_pos hd, byteOf_xor, byteOf_shifted _ (by omega) (by omega)]
    simp only [hd]
    congr 1
    by_cases h : k = j
    · simp [h]
    · rw [if_neg h, if_neg (by omega)]
  · rw [if_neg hd, if_neg (by omega)]
    simp

end Sys2Proof.Machine
end

