-- ==== Sys2Proof/Laws/Commands.lean ====
section
/-! SUPPORT. What a command can do, said once: exec is the completion of one result, a result that succeeds changes only
engine-written registers, and one that fails names its code. -/

namespace Sys2Proof.Machine

/-- The pseudocode of a command: the state it leaves, or the error it raises. -/
def commandResult : Instr → State → Except ResultCode State
  | .kinit, s => runKinit s
  | .kabs n, s => runKabs n s
  | .kfin, s => runKfin s
  | .ksqz n, s => runKsqz n s
  | .kperm, s => runKperm s
  | .fadd d a b, s => fieldBinary fadd d a b s
  | .fsub d a b, s => fieldBinary fsub d a b s
  | .fmul d a b, s => fieldBinary fmul d a b s
  | .finv d a, s => runFinv d a s
  | .padd d a b, s => runPadd d a b s
  | .pdbl d a, s => runPdbl d a s
  | .pmulg d a, s => runPmulg d a s

theorem exec_eq_finish (i : Instr) (s : State) : exec i s = s.finish (commandResult i s) := by
  cases i <;> rfl

/-- A command always answers a next state: its writes and completion, or completion with its error. -/
theorem exec_cases (i : Instr) (s : State) :
    (∃ t, commandResult i s = .ok t ∧ exec i s = .next (t.complete .ok)) ∨
      ∃ c, commandResult i s = .error c ∧ exec i s = .next (s.complete c) := by
  rw [exec_eq_finish]
  cases h : commandResult i s with
  | ok t => exact .inl ⟨t, rfl, rfl⟩
  | error c => exact .inr ⟨c, rfl, rfl⟩

/-! ## What each checked operand and each sum answers -/

theorem isElement_iff (x : Nat) : isElement x = true ↔ x < P_FIELD := by simp [isElement]

theorem State.fieldOperand_cases (s : State) (i : VReg) :
    (isElement (s.getV i) = true ∧ s.fieldOperand i = .ok (s.getV i)) ∨
      (isElement (s.getV i) = false ∧ s.fieldOperand i = .error .range) := by
  unfold State.fieldOperand
  cases isElement (s.getV i)
  · exact .inr ⟨rfl, rfl⟩
  · exact .inl ⟨rfl, rfl⟩

theorem State.pointOperand_cases (s : State) (j : PReg) :
    ((s.getP j).inRange = true ∧ s.pointOperand j = .ok (s.getP j)) ∨
      ((s.getP j).inRange = false ∧ s.pointOperand j = .error .range) := by
  unfold State.pointOperand
  cases (s.getP j).inRange
  · exact .inr ⟨rfl, rfl⟩
  · exact .inl ⟨rfl, rfl⟩

theorem finvChecked_zero : finvChecked 0 = .error .invZero := rfl

theorem finvChecked_pos {a : Nat} (h : a ≠ 0) : finvChecked a = .ok (finv a) := if_neg h

theorem finvChecked_error {a : Nat} {c : ResultCode} (h : finvChecked a = .error c) : c = .invZero ∧ a = 0 := by
  by_cases h0 : a = 0
  · subst h0
    rw [finvChecked_zero] at h
    exact ⟨(Except.error.inj h).symm, rfl⟩
  · rw [finvChecked_pos h0] at h
    cases h

theorem slopeChecked_pos {num den : Nat} (h : den ≠ 0) : slopeChecked num den = .ok (fmul num (finv den)) := by
  simp only [slopeChecked, finvChecked_pos h]

theorem slopeChecked_zero (num : Nat) : slopeChecked num 0 = .error .invZero := by
  simp only [slopeChecked, finvChecked_zero]

theorem slopeChecked_error {num den : Nat} {c : ResultCode} (h : slopeChecked num den = .error c) :
    c = .invZero := by
  by_cases h0 : den = 0
  · rw [h0, slopeChecked_zero] at h
    exact (Except.error.inj h).symm
  · rw [slopeChecked_pos h0] at h
    cases h

/-- `ecadd` of two affine points, by its cases (43_point.md R95). -/
theorem ecadd_inf_left (q : Point) : ecadd .inf q = .ok q := rfl

theorem ecadd_inf_right (q : Point) : ecadd q .inf = .ok q := by cases q <;> rfl

theorem ecadd_opposite {x y1 y2 : Nat} (h : (y1 + y2) % P_FIELD = 0) : ecadd (.aff x y1) (.aff x y2) = .ok .inf := by
  simp only [ecadd, h, and_self, if_true]

theorem ecadd_tangent {x y : Nat} (h : (y + y) % P_FIELD ≠ 0) :
    ecadd (.aff x y) (.aff x y) = .ok (chord (fmul (fmul 3 (fmul x x)) (finv (fadd y y))) x y x) := by
  have h' : fadd y y ≠ 0 := h
  simp only [ecadd, h, and_false, if_false, and_self, if_true, slopeChecked_pos h']

theorem ecadd_chord {x1 y1 x2 y2 : Nat} (hx : x1 ≠ x2) (h : fsub x2 x1 ≠ 0) :
    ecadd (.aff x1 y1) (.aff x2 y2) = .ok (chord (fmul (fsub y2 y1) (finv (fsub x2 x1))) x1 y1 x2) := by
  simp only [ecadd, hx, false_and, if_false, slopeChecked_pos h]

theorem ecadd_zeroDenominator {x y1 y2 : Nat} (hs : (y1 + y2) % P_FIELD ≠ 0) (hy : y1 ≠ y2) (h : fsub x x = 0) :
    ecadd (.aff x y1) (.aff x y2) = .error .invZero := by
  simp only [ecadd, hs, and_false, if_false, hy, h, slopeChecked_zero]

theorem ecadd_error {p q : Point} {c : ResultCode} (h : ecadd p q = .error c) : c = .invZero := by
  unfold ecadd at h
  split at h
  · cases h
  · cases h
  · split at h
    · cases h
    · split at h
      · rename_i hm
        split at hm
        · exact (Except.error.inj h) ▸ slopeChecked_error hm
        · exact (Except.error.inj h) ▸ slopeChecked_error hm
      · cases h

/-- The sum of two affine points is Inf, a chord's third point, or a zero denominator. -/
theorem ecadd_aff_cases (x1 y1 x2 y2 : Nat) :
    ecadd (.aff x1 y1) (.aff x2 y2) = .ok .inf ∨
      (∃ m, ecadd (.aff x1 y1) (.aff x2 y2) = .ok (chord m x1 y1 x2)) ∨
      ecadd (.aff x1 y1) (.aff x2 y2) = .error .invZero := by
  by_cases h : x1 = x2 ∧ (y1 + y2) % P_FIELD = 0
  · exact .inl (by simp only [ecadd, if_pos h])
  · right
    cases hm : (if x1 = x2 ∧ y1 = y2 then slopeChecked (fmul 3 (fmul x1 x1)) (fadd y1 y1)
      else slopeChecked (fsub y2 y1) (fsub x2 x1)) with
    | ok m => exact .inl ⟨m, by simp only [ecadd, if_neg h, hm]⟩
    | error c =>
      have hc : c = .invZero := by
        split at hm <;> exact slopeChecked_error hm
      exact .inr (by simp only [ecadd, if_neg h, hm, hc])

/-- Doubling never fails (43_point.md R96): a zero denominator would have been the opposite case. -/
theorem ecadd_self (q : Point) : ∃ r, ecadd q q = .ok r := by
  cases q with
  | inf => exact ⟨_, rfl⟩
  | aff x y =>
    by_cases h : (y + y) % P_FIELD = 0
    · exact ⟨_, ecadd_opposite h⟩
    · exact ⟨_, ecadd_tangent h⟩

theorem scalarLoop_error {k fuel i : Nat} {r x : Point} {c : ResultCode}
    (h : scalarLoop k fuel i r x = .error c) : c = .invZero := by
  induction fuel generalizing i r x with
  | zero => cases h
  | succ fuel ih =>
    simp only [scalarLoop] at h
    split at h
    · rename_i ha
      split at ha
      · exact (Except.error.inj h) ▸ ecadd_error ha
      · cases ha
    · split at h
      · rename_i hd
        exact (Except.error.inj h) ▸ ecadd_error hd
      · exact ih h

theorem scalarMulG_error {k : Nat} {c : ResultCode} (h : scalarMulG k = .error c) : c = .invZero :=
  scalarLoop_error h

/-! ## What a successful command changes -/

theorem absorbByte_frame (s : State) (b : Byte) :
    absorbByte s b = { s with lanes := (absorbByte s b).lanes, pos := (absorbByte s b).pos } := by
  unfold absorbByte
  simp only
  split <;> rfl

theorem absorb_frame (l : List Byte) (s : State) :
    l.foldl absorbByte s = { s with lanes := (l.foldl absorbByte s).lanes, pos := (l.foldl absorbByte s).pos } := by
  induction l generalizing s with
  | nil => rfl
  | cons b l ih =>
    rw [List.foldl_cons, ih, absorbByte_frame]

theorem refill_frame (s : State) : refill s = { s with lanes := (refill s).lanes, pos := (refill s).pos } := by
  unfold refill
  split <;> rfl

theorem squeezeBytes_frame (n : Nat) (s : State) :
    (squeezeBytes n s).2 =
      { s with lanes := (squeezeBytes n s).2.lanes, pos := (squeezeBytes n s).2.pos } := by
  induction n generalizing s with
  | zero => rfl
  | succ n ih =>
    simp only [squeezeBytes]
    rw [ih, refill_frame]

/-- The fields a command may change, when it succeeds. -/
def State.EngineFrame (s t : State) : Prop :=
  t = { s with
    lanes := t.lanes, pos := t.pos, phase := t.phase, arate := t.arate, asuffix := t.asuffix, v := t.v, inf := t.inf,
    dout := t.dout }

/-- A change of the sponge alone. -/
theorem State.EngineFrame.of_sponge (s : State) (lanes : Lanes) (pos : Byte) (phase : Phase) (arate asuffix : Byte) :
    s.EngineFrame { s with lanes := lanes, pos := pos, phase := phase, arate := arate, asuffix := asuffix } := rfl

theorem State.EngineFrame.of_lanes_pos {s u : State} (h : u = { s with lanes := u.lanes, pos := u.pos }) :
    s.EngineFrame u := by
  rw [h]; rfl

theorem State.EngineFrame.of_lanes_pos_dout {s u : State} (h : u = { s with lanes := u.lanes, pos := u.pos })
    (x : BitVec 64) : s.EngineFrame { u with dout := x } := by
  rw [h]; rfl

theorem fieldBinary_cases (f : Nat → Nat → Nat) (d a b : VReg) (s : State) :
    (isElement (s.getV a) = true ∧ isElement (s.getV b) = true ∧
      fieldBinary f d a b s = .ok (s.setV d (f (s.getV a) (s.getV b)))) ∨
    ((isElement (s.getV a) = false ∨ isElement (s.getV b) = false) ∧ fieldBinary f d a b s = .error .range) := by
  unfold fieldBinary
  rcases s.fieldOperand_cases a with ⟨ha, ea⟩ | ⟨ha, ea⟩ <;> rw [ea]
  · rcases s.fieldOperand_cases b with ⟨hb, eb⟩ | ⟨hb, eb⟩ <;> rw [eb]
    · exact .inl ⟨ha, hb, rfl⟩
    · exact .inr ⟨.inr hb, rfl⟩
  · exact .inr ⟨.inl ha, rfl⟩

theorem runFinv_cases (d a : VReg) (s : State) :
    (isElement (s.getV a) = true ∧ s.getV a ≠ 0 ∧ runFinv d a s = .ok (s.setV d (finv (s.getV a)))) ∨
    (isElement (s.getV a) = false ∧ runFinv d a s = .error .range) ∨
    (s.getV a = 0 ∧ runFinv d a s = .error .invZero) := by
  unfold runFinv
  rcases s.fieldOperand_cases a with ⟨ha, ea⟩ | ⟨ha, ea⟩ <;> rw [ea]
  · by_cases h0 : s.getV a = 0
    · exact .inr (.inr ⟨h0, by simp only [h0, finvChecked_zero]⟩)
    · exact .inl ⟨ha, h0, by simp only [finvChecked_pos h0]⟩
  · exact .inr (.inl ⟨ha, rfl⟩)

theorem writeSum_cases (d : PReg) (p q : Point) (s : State) :
    (∃ r, ecadd p q = .ok r ∧ writeSum d p q s = .ok (s.setP d r)) ∨
      (ecadd p q = .error .invZero ∧ writeSum d p q s = .error .invZero) := by
  unfold writeSum
  cases h : ecadd p q with
  | ok r => exact .inl ⟨r, rfl, rfl⟩
  | error c => exact .inr (by rw [ecadd_error h]; exact ⟨rfl, rfl⟩)

theorem runPadd_cases (d a b : PReg) (s : State) :
    ((s.getP a).inRange = true ∧ (s.getP b).inRange = true ∧
      runPadd d a b s = writeSum d (s.getP a) (s.getP b) s) ∨
    (((s.getP a).inRange = false ∨ (s.getP b).inRange = false) ∧ runPadd d a b s = .error .range) := by
  unfold runPadd
  rcases s.pointOperand_cases a with ⟨ha, ea⟩ | ⟨ha, ea⟩ <;> rw [ea]
  · rcases s.pointOperand_cases b with ⟨hb, eb⟩ | ⟨hb, eb⟩ <;> rw [eb]
    · exact .inl ⟨ha, hb, rfl⟩
    · exact .inr ⟨.inr hb, rfl⟩
  · exact .inr ⟨.inl ha, rfl⟩

theorem runPdbl_cases (d a : PReg) (s : State) :
    ((s.getP a).inRange = true ∧ ∃ r, ecadd (s.getP a) (s.getP a) = .ok r ∧ runPdbl d a s = .ok (s.setP d r)) ∨
    ((s.getP a).inRange = false ∧ runPdbl d a s = .error .range) := by
  unfold runPdbl
  rcases s.pointOperand_cases a with ⟨ha, ea⟩ | ⟨ha, ea⟩ <;> rw [ea]
  · obtain ⟨r, hr⟩ := ecadd_self (s.getP a)
    exact .inl ⟨ha, r, hr, by simp only [writeSum, hr]⟩
  · exact .inr ⟨ha, rfl⟩

theorem runPmulg_cases (d : PReg) (a : VReg) (s : State) :
    (scalarValid (s.getV a) = false ∧ runPmulg d a s = .error .scalar) ∨
    (scalarValid (s.getV a) = true ∧
      ((∃ x y, scalarMulG (s.getV a) = .ok (.aff x y) ∧ runPmulg d a s = .ok (s.setP d (.aff x y))) ∨
       (scalarMulG (s.getV a) = .ok .inf ∧ runPmulg d a s = .error .invariant) ∨
       (scalarMulG (s.getV a) = .error .invZero ∧ runPmulg d a s = .error .invZero))) := by
  unfold runPmulg
  cases scalarValid (s.getV a)
  · exact .inl ⟨rfl, rfl⟩
  · refine .inr ⟨rfl, ?_⟩
    cases h : scalarMulG (s.getV a) with
    | ok q =>
      cases q with
      | inf => exact .inr (.inl ⟨rfl, rfl⟩)
      | aff x y => exact .inl ⟨x, y, rfl, rfl⟩
    | error c => exact .inr (.inr (by rw [scalarMulG_error h]; exact ⟨rfl, rfl⟩))

theorem State.setV_frame (s : State) (d : VReg) (x : Nat) : s.EngineFrame (s.setV d x) := rfl

theorem State.setP_frame (s : State) (d : PReg) (q : Point) : s.EngineFrame (s.setP d q) := rfl

/-- A command that succeeds leaves the host's registers, the error registers and the model's own fields alone. -/
theorem commandResult_frame {i : Instr} {s t : State} (h : commandResult i s = .ok t) : s.EngineFrame t := by
  cases i with
  | kinit =>
    simp only [commandResult, runKinit] at h
    split at h
    · exact Except.ok.inj h ▸ .of_sponge s _ _ _ _ _
    · cases h
  | kabs n =>
    simp only [commandResult, runKabs] at h
    split at h
    · exact Except.ok.inj h ▸ .of_lanes_pos (absorb_frame _ s)
    · cases h
  | kfin =>
    simp only [commandResult, runKfin] at h
    split at h
    · exact Except.ok.inj h ▸ .of_sponge s _ _ _ _ _
    · cases h
  | ksqz n =>
    simp only [commandResult, runKsqz] at h
    split at h
    · exact Except.ok.inj h ▸ .of_lanes_pos_dout (squeezeBytes_frame n s) _
    · cases h
  | kperm => exact Except.ok.inj h ▸ .of_sponge s _ _ _ _ _
  | fadd d a b =>
    rcases fieldBinary_cases fadd d a b s with ⟨-, -, e⟩ | ⟨-, e⟩ <;> rw [commandResult, e] at h
    · exact Except.ok.inj h ▸ s.setV_frame _ _
    · cases h
  | fsub d a b =>
    rcases fieldBinary_cases fsub d a b s with ⟨-, -, e⟩ | ⟨-, e⟩ <;> rw [commandResult, e] at h
    · exact Except.ok.inj h ▸ s.setV_frame _ _
    · cases h
  | fmul d a b =>
    rcases fieldBinary_cases fmul d a b s with ⟨-, -, e⟩ | ⟨-, e⟩ <;> rw [commandResult, e] at h
    · exact Except.ok.inj h ▸ s.setV_frame _ _
    · cases h
  | finv d a =>
    rcases runFinv_cases d a s with ⟨-, -, e⟩ | ⟨-, e⟩ | ⟨-, e⟩ <;> rw [commandResult, e] at h
    · exact Except.ok.inj h ▸ s.setV_frame _ _
    · cases h
    · cases h
  | padd d a b =>
    rcases runPadd_cases d a b s with ⟨-, -, e⟩ | ⟨-, e⟩ <;> rw [commandResult, e] at h
    · rcases writeSum_cases d (s.getP a) (s.getP b) s with ⟨r, -, e⟩ | ⟨-, e⟩ <;> rw [e] at h
      · exact Except.ok.inj h ▸ s.setP_frame _ _
      · cases h
    · cases h
  | pdbl d a =>
    rcases runPdbl_cases d a s with ⟨-, r, -, e⟩ | ⟨-, e⟩ <;> rw [commandResult, e] at h
    · exact Except.ok.inj h ▸ s.setP_frame _ _
    · cases h
  | pmulg d a =>
    rcases runPmulg_cases d a s with ⟨-, e⟩ | ⟨-, ⟨x, y, -, e⟩ | ⟨-, e⟩ | ⟨-, e⟩⟩ <;> rw [commandResult, e] at h
    · cases h
    · exact Except.ok.inj h ▸ s.setP_frame _ _
    · cases h
    · cases h

/-- The fields a successful command never changes, one by one. -/
theorem State.EngineFrame.fields {s t : State} (h : s.EngineFrame t) :
    t.din = s.din ∧ t.fatal = s.fatal ∧ t.sticky = s.sticky ∧ t.ovr = s.ovr ∧ t.code = s.code ∧
      t.errcmd = s.errcmd ∧ t.spRate = s.spRate ∧ t.spSuffix = s.spSuffix ∧ t.inflight = s.inflight ∧
      t.events = s.events ∧ t.readLog = s.readLog ∧ t.draws = s.draws := by
  rw [h]
  exact ⟨rfl, rfl, rfl, rfl, rfl, rfl, rfl, rfl, rfl, rfl, rfl, rfl⟩

/-! ## What the host does around a command does not reach it -/

/-- The state with the model's own fields replaced. -/
def State.around (s : State) (e : List Event) (r : List (Addr × Word)) (d : Nat) : State :=
  { s with events := e, readLog := r, draws := d }

theorem absorb_around (l : List Byte) (s : State) (e : List Event) (r : List (Addr × Word)) (d : Nat) :
    l.foldl absorbByte (s.around e r d) = (l.foldl absorbByte s).around e r d := by
  induction l generalizing s with
  | nil => rfl
  | cons b l ih =>
    have h : absorbByte (s.around e r d) b = (absorbByte s b).around e r d := by
      by_cases hp : s.pos + 1 = s.arate
      · have hp' : (s.around e r d).pos + 1 = (s.around e r d).arate := hp
        simp only [absorbByte, if_pos hp, if_pos hp']
        rfl
      · have hp' : ¬ (s.around e r d).pos + 1 = (s.around e r d).arate := hp
        simp only [absorbByte, if_neg hp, if_neg hp']
        rfl
    rw [List.foldl_cons, List.foldl_cons, h, ih]

theorem refill_around (s : State) (e : List Event) (r : List (Addr × Word)) (d : Nat) :
    refill (s.around e r d) = (refill s).around e r d := by
  by_cases hp : s.pos = s.arate
  · have hp' : (s.around e r d).pos = (s.around e r d).arate := hp
    rw [refill, if_pos hp', refill, if_pos hp]
    rfl
  · have hp' : ¬ (s.around e r d).pos = (s.around e r d).arate := hp
    rw [refill, if_neg hp', refill, if_neg hp]

theorem squeezeBytes_around (n : Nat) (s : State) (e : List Event) (r : List (Addr × Word)) (d : Nat) :
    squeezeBytes n (s.around e r d) = ((squeezeBytes n s).1, (squeezeBytes n s).2.around e r d) := by
  induction n generalizing s with
  | zero => rfl
  | succ n ih =>
    have h := ih { refill s with pos := (refill s).pos + 1 }
    simp only [squeezeBytes, refill_around]
    exact congrArg (fun p => (stateByte (refill s).lanes (refill s).pos.toNat :: p.1, p.2)) h

/-- A command reads and writes none of the model's own fields (60_exceptions.md R112). -/
theorem commandResult_around (i : Instr) (s : State) (e : List Event) (r : List (Addr × Word)) (d : Nat) :
    commandResult i (s.around e r d) = (commandResult i s).map fun t => t.around e r d := by
  cases i with
  | kinit =>
    simp only [commandResult, runKinit]
    by_cases h : rateLegal s.spRate = true
    · rw [if_pos h, if_pos (show rateLegal (s.around e r d).spRate = true from h)]; rfl
    · rw [if_neg h, if_neg (show ¬ rateLegal (s.around e r d).spRate = true from h)]; rfl
  | kabs n =>
    simp only [commandResult, runKabs]
    by_cases h : s.phase = .absorb
    · rw [if_pos h, if_pos (show (s.around e r d).phase = .absorb from h),
        show dinBytes (s.around e r d) n = dinBytes s n from rfl, absorb_around]
      rfl
    · rw [if_neg h, if_neg (show ¬ (s.around e r d).phase = .absorb from h)]; rfl
  | kfin =>
    simp only [commandResult, runKfin]
    by_cases h : s.phase = .absorb
    · rw [if_pos h, if_pos (show (s.around e r d).phase = .absorb from h)]
      rfl
    · rw [if_neg h, if_neg (show ¬ (s.around e r d).phase = .absorb from h)]; rfl
  | ksqz n =>
    simp only [commandResult, runKsqz]
    by_cases h : s.phase = .squeeze
    · rw [if_pos h, if_pos (show (s.around e r d).phase = .squeeze from h), squeezeBytes_around]
      rfl
    · rw [if_neg h, if_neg (show ¬ (s.around e r d).phase = .squeeze from h)]; rfl
  | kperm => rfl
  | fadd d' a b =>
    have h1 : (s.around e r d).getV a = s.getV a := rfl
    have h2 : (s.around e r d).getV b = s.getV b := rfl
    simp only [commandResult, fieldBinary, State.fieldOperand, h1, h2]
    cases isElement (s.getV a) <;> cases isElement (s.getV b) <;> rfl
  | fsub d' a b =>
    have h1 : (s.around e r d).getV a = s.getV a := rfl
    have h2 : (s.around e r d).getV b = s.getV b := rfl
    simp only [commandResult, fieldBinary, State.fieldOperand, h1, h2]
    cases isElement (s.getV a) <;> cases isElement (s.getV b) <;> rfl
  | fmul d' a b =>
    have h1 : (s.around e r d).getV a = s.getV a := rfl
    have h2 : (s.around e r d).getV b = s.getV b := rfl
    simp only [commandResult, fieldBinary, State.fieldOperand, h1, h2]
    cases isElement (s.getV a) <;> cases isElement (s.getV b) <;> rfl
  | finv d' a =>
    have h1 : (s.around e r d).getV a = s.getV a := rfl
    simp only [commandResult, runFinv, State.fieldOperand, h1]
    cases isElement (s.getV a)
    · rfl
    · simp only [if_true]
      cases finvChecked (s.getV a) <;> rfl
  | padd d' a b =>
    have h1 : (s.around e r d).getP a = s.getP a := rfl
    have h2 : (s.around e r d).getP b = s.getP b := rfl
    simp only [commandResult, runPadd, State.pointOperand, h1, h2]
    cases (s.getP a).inRange
    · rfl
    · cases (s.getP b).inRange
      · rfl
      · simp only [if_true, writeSum]
        cases ecadd (s.getP a) (s.getP b) <;> rfl
  | pdbl d' a =>
    have h1 : (s.around e r d).getP a = s.getP a := rfl
    simp only [commandResult, runPdbl, State.pointOperand, h1]
    cases (s.getP a).inRange
    · rfl
    · simp only [if_true, writeSum]
      cases ecadd (s.getP a) (s.getP a) <;> rfl
  | pmulg d' a =>
    have h1 : (s.around e r d).getV a = s.getV a := rfl
    simp only [commandResult, runPmulg, h1]
    cases scalarValid (s.getV a)
    · rfl
    · simp only [if_true]
      cases scalarMulG (s.getV a) with
      | error c => rfl
      | ok q => cases q <;> rfl

end Sys2Proof.Machine
end

