-- ==== Sys2Proof/Laws/Decode.lean ====
section
/-! SUPPORT. The fields of a command word, and what the decoder's checks answer. -/

namespace Sys2Proof

theorem commandWord_toNat {op d a b : Nat} (ho : op < 256) (hd : d < 16) (ha : a < 16) (hb : b < 16) :
    (commandWord op d a b).toNat = op + 2 ^ 8 * d + 2 ^ 12 * a + 2 ^ 16 * b := by
  simp only [commandWord, BitVec.toNat_ofNat]
  omega

section fields
variable {op d a b : Nat} (ho : op < 256) (hd : d < 16) (ha : a < 16) (hb : b < 16)
include ho hd ha hb

theorem opField_commandWord : opField (commandWord op d a b) = op := by
  simp only [opField, bits, commandWord_toNat ho hd ha hb]; omega

theorem dField_commandWord : dField (commandWord op d a b) = d := by
  simp only [dField, bits, commandWord_toNat ho hd ha hb]; omega

theorem aField_commandWord : aField (commandWord op d a b) = a := by
  simp only [aField, bits, commandWord_toNat ho hd ha hb]; omega

theorem bField_commandWord : bField (commandWord op d a b) = b := by
  simp only [bField, bits, commandWord_toNat ho hd ha hb]; omega

theorem rsvField_commandWord : rsvField (commandWord op d a b) = 0 := by
  simp only [rsvField, bits, commandWord_toNat ho hd ha hb]; omega

end fields

theorem opField_lt (w : Word) : opField w < 256 := Nat.mod_lt _ (by decide)
theorem dField_lt (w : Word) : dField w < 16 := Nat.mod_lt _ (by decide)
theorem aField_lt (w : Word) : aField w < 16 := Nat.mod_lt _ (by decide)
theorem bField_lt (w : Word) : bField w < 16 := Nat.mod_lt _ (by decide)

/-- A word is its five fields (30_encoding.md R54). -/
theorem word_eq_fields (w : Word) :
    w.toNat = opField w + 2 ^ 8 * dField w + 2 ^ 12 * aField w + 2 ^ 16 * bField w + 2 ^ 20 * rsvField w := by
  have := w.isLt
  simp only [opField, dField, aField, bField, rsvField, bits]
  omega

/-- A word whose RSV is 0 is the command word of its fields. -/
theorem commandWord_fields (w : Word) (h : rsvField w = 0) :
    commandWord (opField w) (dField w) (aField w) (bField w) = w := by
  apply BitVec.eq_of_toNat_eq
  rw [commandWord_toNat (opField_lt w) (dField_lt w) (aField_lt w) (bField_lt w)]
  have := word_eq_fields w
  omega

@[simp] theorem vNum_val (v : VReg) : vNum v.val = v := by
  apply Fin.ext; simp [vNum, Nat.mod_eq_of_lt v.isLt]

@[simp] theorem pNum_val (p : PReg) : pNum p.val = p := by
  apply Fin.ext; simp [pNum, Nat.mod_eq_of_lt p.isLt]

theorem checked_eq_ok (w : Word) (zeros : List Nat) (i j : Instr) :
    checked w zeros i = .ok j ↔ rsvField w = 0 ∧ (∀ z ∈ zeros, z = 0) ∧ i = j := by
  unfold checked
  by_cases h : rsvField w = 0
  · by_cases h' : zeros.all (fun z => z == 0) = true
    · rw [if_neg (by simpa using h), if_pos h']
      have hz : ∀ z ∈ zeros, z = 0 := by simpa using h'
      simp only [h, Except.ok.injEq, true_and]
      exact ⟨fun e => ⟨hz, e⟩, fun e => e.2⟩
    · rw [if_neg (by simpa using h), if_neg h']
      have : ¬ ∀ z ∈ zeros, z = 0 := by simpa using h'
      simp [h, this]
  · simp [h]

theorem checkedCount_eq_ok (w : Word) (i j : Instr) :
    checkedCount w i = .ok j ↔
      rsvField w = 0 ∧ aField w = 0 ∧ bField w = 0 ∧ countOk (dField w) = true ∧ i = j := by
  unfold checkedCount
  cases h : checked w [aField w, bField w] i with
  | ok k =>
    have h1 := (checked_eq_ok w _ i k).1 h
    obtain ⟨hr, hz, rfl⟩ := h1
    have ha := hz (aField w) (by simp)
    have hb := hz (bField w) (by simp)
    by_cases hc : countOk (dField w) = true <;> simp [hr, ha, hb, hc]
  | error e =>
    simp only [reduceCtorEq, false_iff]
    rintro ⟨hr, ha, hb, -, -⟩
    have : checked w [aField w, bField w] i = .ok i := (checked_eq_ok w _ i i).2 ⟨hr, by simp [ha, hb], rfl⟩
    rw [this] at h
    exact absurd h (by simp)

end Sys2Proof
end

