-- ==== Sys2Proof/Laws/Primes.lean ====
section
/-! SUPPORT. The field prime and the group order of secp256k1 (00_scope.md R8) are primes. Each step is a Pratt certificate:
a primitive root and the prime factors of the number less one. -/

-- One kernel check at a time: each check on a thread of its own would wait for all before it.
set_option Elab.async false

namespace Sys2Proof.Laws

/-- `a ^ e % m` by squaring, for an e below `2 ^ fuel`: what the certificates are checked with. -/
def powMod (m : Nat) : (fuel a e : Nat) → Nat
  | 0, _, _ => 1 % m
  | fuel + 1, a, e =>
    if e % 2 = 1 then a * powMod m fuel (a * a % m) (e / 2) % m else powMod m fuel (a * a % m) (e / 2)

theorem powMod_eq (m fuel a e : Nat) (h : e < 2 ^ fuel) : powMod m fuel a e = a ^ e % m := by
  induction fuel generalizing a e with
  | zero =>
    have : e = 0 := by simpa using h
    subst this
    rfl
  | succ fuel ih =>
    have hs : (a * a % m) ^ (e / 2) % m = a ^ (2 * (e / 2)) % m := by rw [← Nat.pow_mod, ← pow_two, ← pow_mul]
    rw [powMod, ih _ _ (by rw [pow_succ] at h; omega), hs]
    split
    · have he : 2 * (e / 2) + 1 = e := by omega
      rw [Nat.mul_mod, Nat.mod_mod, ← Nat.mul_mod, mul_comm, ← pow_succ, he]
    · have he : 2 * (e / 2) = e := by omega
      rw [he]

/-- Lucas's test with the factors of p - 1 given: a has order p - 1 modulo p. -/
theorem prime_of_certificate {p a : Nat} (factors : List Nat) (bitLen : Nat) (hp : p < 2 ^ bitLen) (h2 : 2 ≤ p)
    (hf : ∀ q ∈ factors, q.Prime) (hprod : factors.prod = p - 1) (h1 : powMod p bitLen a (p - 1) = 1)
    (hne : (factors.all fun q => powMod p bitLen a ((p - 1) / q) != 1) = true) : p.Prime := by
  have cast : ∀ e, e < 2 ^ bitLen → ((a : ZMod p) ^ e = 1 ↔ powMod p bitLen a e = 1) := by
    intro e he
    rw [powMod_eq _ _ _ _ he, ← Nat.cast_pow, ← Nat.cast_one, ZMod.natCast_eq_natCast_iff, Nat.ModEq,
      Nat.mod_eq_of_lt (show 1 < p by omega)]
  refine lucas_primality p a ((cast _ (by omega)).2 h1) fun q hq hd h => ?_
  have hmem : q ∈ factors := by
    rw [← hprod] at hd
    obtain ⟨r, hr, hqr⟩ := (hq.prime.dvd_prod_iff).1 hd
    rwa [(Nat.prime_dvd_prime_iff_eq hq (hf r hr)).1 hqr]
  have := List.all_eq_true.1 hne q hmem
  rw [bne_iff_ne] at this
  exact this ((cast _ (lt_of_le_of_lt (Nat.div_le_self _ _) (by omega))).1 h)

theorem prime_13331831 : Nat.Prime 13331831 :=
  prime_of_certificate (a := 13) [2, 5, 971, 1373] 24 (by decide) (by decide) (by
    simp only [List.forall_mem_cons, List.not_mem_nil, false_imp_iff, implies_true, and_true]
    exact ⟨(by norm_num), (by norm_num), (by norm_num), (by norm_num)⟩)
    (by decide) (by decide +kernel) (by decide +kernel)

theorem prime_173378833005 : Nat.Prime 173378833005251801 :=
  prime_of_certificate (a := 6) [2, 2, 2, 5, 5, 2621, 24809, 13331831] 58 (by decide) (by decide) (by
    simp only [List.forall_mem_cons, List.not_mem_nil, false_imp_iff, implies_true, and_true]
    exact ⟨(by norm_num), (by norm_num), (by norm_num), (by norm_num), (by norm_num), (by norm_num), (by norm_num), prime_13331831⟩)
    (by decide) (by decide +kernel) (by decide +kernel)

theorem prime_221494926740 : Nat.Prime 22149492674086928081353 :=
  prime_of_certificate (a := 5) [2, 2, 2, 3, 5323, 173378833005251801] 75 (by decide) (by decide) (by
    simp only [List.forall_mem_cons, List.not_mem_nil, false_imp_iff, implies_true, and_true]
    exact ⟨(by norm_num), (by norm_num), (by norm_num), (by norm_num), (by norm_num), prime_173378833005⟩)
    (by decide) (by decide +kernel) (by decide +kernel)

theorem prime_132896956044 : Nat.Prime 132896956044521568488119 :=
  prime_of_certificate (a := 6) [2, 3, 22149492674086928081353] 77 (by decide) (by decide) (by
    simp only [List.forall_mem_cons, List.not_mem_nil, false_imp_iff, implies_true, and_true]
    exact ⟨(by norm_num), (by norm_num), prime_221494926740⟩)
    (by decide) (by decide +kernel) (by decide +kernel)

theorem prime_1206781 : Nat.Prime 1206781 :=
  prime_of_certificate (a := 10) [2, 2, 3, 5, 20113] 21 (by decide) (by decide) (by
    simp only [List.forall_mem_cons, List.not_mem_nil, false_imp_iff, implies_true, and_true]
    exact ⟨(by norm_num), (by norm_num), (by norm_num), (by norm_num), (by norm_num)⟩)
    (by decide) (by decide +kernel) (by decide +kernel)

theorem prime_7240687 : Nat.Prime 7240687 :=
  prime_of_certificate (a := 3) [2, 3, 1206781] 23 (by decide) (by decide) (by
    simp only [List.forall_mem_cons, List.not_mem_nil, false_imp_iff, implies_true, and_true]
    exact ⟨(by norm_num), (by norm_num), prime_1206781⟩)
    (by decide) (by decide +kernel) (by decide +kernel)

theorem prime_107590001 : Nat.Prime 107590001 :=
  prime_of_certificate (a := 3) [2, 2, 2, 2, 5, 5, 5, 5, 7, 29, 53] 27 (by decide) (by decide) (by
    simp only [List.forall_mem_cons, List.not_mem_nil, false_imp_iff, implies_true, and_true]
    exact ⟨(by norm_num), (by norm_num), (by norm_num), (by norm_num), (by norm_num), (by norm_num), (by norm_num), (by norm_num), (by norm_num), (by norm_num), (by norm_num)⟩)
    (by decide) (by decide +kernel) (by decide +kernel)

theorem prime_255515944373 : Nat.Prime 255515944373312847190720520512484175977 :=
  prime_of_certificate (a := 3) [2, 2, 2, 7, 7, 11, 1627, 2657, 4423, 41201, 96557, 7240687, 107590001] 128 (by decide) (by decide) (by
    simp only [List.forall_mem_cons, List.not_mem_nil, false_imp_iff, implies_true, and_true]
    exact ⟨(by norm_num), (by norm_num), (by norm_num), (by norm_num), (by norm_num), (by norm_num), (by norm_num), (by norm_num), (by norm_num), (by norm_num), (by norm_num), prime_7240687, prime_107590001⟩)
    (by decide) (by decide +kernel) (by decide +kernel)

theorem prime_205115282021 : Nat.Prime 205115282021455665897114700593932402728804164701536103180137503955397371 :=
  prime_of_certificate (a := 10) [2, 3, 5, 29, 29, 31, 7723, 132896956044521568488119, 255515944373312847190720520512484175977] 237 (by decide) (by decide) (by
    simp only [List.forall_mem_cons, List.not_mem_nil, false_imp_iff, implies_true, and_true]
    exact ⟨(by norm_num), (by norm_num), (by norm_num), (by norm_num), (by norm_num), (by norm_num), (by norm_num), prime_132896956044, prime_255515944373⟩)
    (by decide) (by decide +kernel) (by decide +kernel)

theorem prime_P_FIELD : Machine.P_FIELD.Prime :=
  prime_of_certificate (a := 3) [2, 3, 7, 13441, 205115282021455665897114700593932402728804164701536103180137503955397371] 256 (by decide) (by decide) (by
    simp only [List.forall_mem_cons, List.not_mem_nil, false_imp_iff, implies_true, and_true]
    exact ⟨(by norm_num), (by norm_num), (by norm_num), (by norm_num), prime_205115282021⟩)
    (by decide) (by decide +kernel) (by decide +kernel)

theorem prime_4681609 : Nat.Prime 4681609 :=
  prime_of_certificate (a := 23) [2, 2, 2, 3, 97, 2011] 23 (by decide) (by decide) (by
    simp only [List.forall_mem_cons, List.not_mem_nil, false_imp_iff, implies_true, and_true]
    exact ⟨(by norm_num), (by norm_num), (by norm_num), (by norm_num), (by norm_num), (by norm_num)⟩)
    (by decide) (by decide +kernel) (by decide +kernel)

theorem prime_107361793816 : Nat.Prime 107361793816595537 :=
  prime_of_certificate (a := 3) [2, 2, 2, 2, 16699, 85831, 4681609] 57 (by decide) (by decide) (by
    simp only [List.forall_mem_cons, List.not_mem_nil, false_imp_iff, implies_true, and_true]
    exact ⟨(by norm_num), (by norm_num), (by norm_num), (by norm_num), (by norm_num), (by norm_num), prime_4681609⟩)
    (by decide) (by decide +kernel) (by decide +kernel)

theorem prime_44706919 : Nat.Prime 44706919 :=
  prime_of_certificate (a := 6) [2, 3, 797, 9349] 26 (by decide) (by decide) (by
    simp only [List.forall_mem_cons, List.not_mem_nil, false_imp_iff, implies_true, and_true]
    exact ⟨(by norm_num), (by norm_num), (by norm_num), (by norm_num)⟩)
    (by decide) (by decide +kernel) (by decide +kernel)

theorem prime_174723607534 : Nat.Prime 174723607534414371449 :=
  prime_of_certificate (a := 3) [2, 2, 2, 17, 59, 4051, 120233, 44706919] 68 (by decide) (by decide) (by
    simp only [List.forall_mem_cons, List.not_mem_nil, false_imp_iff, implies_true, and_true]
    exact ⟨(by norm_num), (by norm_num), (by norm_num), (by norm_num), (by norm_num), (by norm_num), (by norm_num), prime_44706919⟩)
    (by decide) (by decide +kernel) (by decide +kernel)

theorem prime_545358713 : Nat.Prime 545358713 :=
  prime_of_certificate (a := 5) [2, 2, 2, 41, 59, 28181] 30 (by decide) (by decide) (by
    simp only [List.forall_mem_cons, List.not_mem_nil, false_imp_iff, implies_true, and_true]
    exact ⟨(by norm_num), (by norm_num), (by norm_num), (by norm_num), (by norm_num), (by norm_num)⟩)
    (by decide) (by decide +kernel) (by decide +kernel)

theorem prime_1627771 : Nat.Prime 1627771 :=
  prime_of_certificate (a := 3) [2, 3, 5, 29, 1871] 21 (by decide) (by decide) (by
    simp only [List.forall_mem_cons, List.not_mem_nil, false_imp_iff, implies_true, and_true]
    exact ⟨(by norm_num), (by norm_num), (by norm_num), (by norm_num), (by norm_num)⟩)
    (by decide) (by decide +kernel) (by decide +kernel)

theorem prime_297159362677 : Nat.Prime 297159362677 :=
  prime_of_certificate (a := 2) [2, 2, 3, 3, 11, 461, 1627771] 39 (by decide) (by decide) (by
    simp only [List.forall_mem_cons, List.not_mem_nil, false_imp_iff, implies_true, and_true]
    exact ⟨(by norm_num), (by norm_num), (by norm_num), (by norm_num), (by norm_num), (by norm_num), prime_1627771⟩)
    (by decide) (by decide +kernel) (by decide +kernel)

theorem prime_290476118734 : Nat.Prime 29047611873442575647497758179 :=
  prime_of_certificate (a := 2) [2, 293, 305873, 545358713, 297159362677] 95 (by decide) (by decide) (by
    simp only [List.forall_mem_cons, List.not_mem_nil, false_imp_iff, implies_true, and_true]
    exact ⟨(by norm_num), (by norm_num), (by norm_num), prime_545358713, prime_297159362677⟩)
    (by decide) (by decide +kernel) (by decide +kernel)

theorem prime_341948486974 : Nat.Prime 341948486974166000522343609283189 :=
  prime_of_certificate (a := 2) [2, 2, 3, 3, 3, 109, 29047611873442575647497758179] 109 (by decide) (by decide) (by
    simp only [List.forall_mem_cons, List.not_mem_nil, false_imp_iff, implies_true, and_true]
    exact ⟨(by norm_num), (by norm_num), (by norm_num), (by norm_num), (by norm_num), (by norm_num), prime_290476118734⟩)
    (by decide) (by decide +kernel) (by decide +kernel)

theorem prime_N_ORDER : Machine.N_ORDER.Prime :=
  prime_of_certificate (a := 7) [2, 2, 2, 2, 2, 2, 3, 149, 631, 107361793816595537, 174723607534414371449, 341948486974166000522343609283189] 256 (by decide) (by decide) (by
    simp only [List.forall_mem_cons, List.not_mem_nil, false_imp_iff, implies_true, and_true]
    exact ⟨(by norm_num), (by norm_num), (by norm_num), (by norm_num), (by norm_num), (by norm_num), (by norm_num), (by norm_num), (by norm_num), prime_107361793816, prime_174723607534, prime_341948486974⟩)
    (by decide) (by decide +kernel) (by decide +kernel)

end Sys2Proof.Laws
end

