-- ==== Sys2Proof/Laws/Field.lean ====
section
/-! SUPPORT. The arithmetic of the model is the arithmetic of the field of p elements (42_field.md R87 to R94). -/

namespace Sys2Proof.Machine

/-! ## The field -/

theorem P_FIELD_pos : 0 < P_FIELD := by decide

theorem P_FIELD_lt : P_FIELD < 2 ^ 256 := by decide

theorem P_FIELD_fact : Fact P_FIELD.Prime := ⟨Laws.prime_P_FIELD⟩

theorem fadd_lt (a b : Nat) : fadd a b < P_FIELD := Nat.mod_lt _ P_FIELD_pos

theorem fsub_lt (a b : Nat) : fsub a b < P_FIELD := Nat.mod_lt _ P_FIELD_pos

theorem fmul_lt (a b : Nat) : fmul a b < P_FIELD := Nat.mod_lt _ P_FIELD_pos

theorem fpow_eq (fuel a e : Nat) (h : e < 2 ^ fuel) : fpow fuel a e = a ^ e % P_FIELD := by
  induction fuel generalizing a e with
  | zero =>
    have : e = 0 := by simpa using h
    subst this
    rfl
  | succ fuel ih =>
    have hs : fpow fuel (fmul a a) (e / 2) = a ^ (2 * (e / 2)) % P_FIELD := by
      rw [ih _ _ (by rw [pow_succ] at h; omega), fmul, ← Nat.pow_mod, ← pow_two, ← pow_mul]
    rw [fpow, hs]
    split
    · have he : 2 * (e / 2) + 1 = e := by omega
      rw [fmul, Nat.mul_mod, Nat.mod_mod, ← Nat.mul_mod, mul_comm, ← pow_succ, he]
    · have he : 2 * (e / 2) = e := by omega
      rw [he]

theorem finv_eq (a : Nat) : finv a = a ^ (P_FIELD - 2) % P_FIELD := fpow_eq 256 a _ (by decide)

theorem finv_lt (a : Nat) : finv a < P_FIELD := finv_eq a ▸ Nat.mod_lt _ P_FIELD_pos

/-- Over the integers, for a subtrahend that is a field element (42_field.md R91). -/
theorem fsub_eq_int {a b : Nat} (hb : b ≤ P_FIELD) : (fsub a b : Int) = ((a : Int) - b) % P_FIELD := by
  rw [fsub, Int.natCast_emod, Nat.cast_add, Nat.cast_sub hb, ← Int.add_emod_right ((a : Int) - b)]
  congr 1
  omega

/-! ## Points in range -/

theorem Point.inRange_aff (x y : Nat) : (Point.aff x y).inRange = true ↔ x < P_FIELD ∧ y < P_FIELD := by
  simp [Point.inRange, isElement]

theorem chord_inRange (m x1 y1 x2 : Nat) : (chord m x1 y1 x2).inRange = true :=
  (Point.inRange_aff _ _).2 ⟨fsub_lt _ _, fsub_lt _ _⟩

theorem Point.fits_of_inRange {q : Point} (h : q.inRange = true) : q.Fits := by
  cases q with
  | inf => exact ⟨by decide, by decide⟩
  | aff x y =>
    obtain ⟨hx, hy⟩ := (Point.inRange_aff x y).1 h
    exact ⟨lt_trans hx P_FIELD_lt, lt_trans hy P_FIELD_lt⟩

/-- Sums of points in range are in range: every intermediate is a field element (42_field.md R88). -/
theorem ecadd_inRange {p q r : Point} (hp : p.inRange = true) (hq : q.inRange = true) (h : ecadd p q = .ok r) :
    r.inRange = true := by
  cases p with
  | inf => exact Except.ok.inj ((ecadd_inf_left q).symm.trans h) ▸ hq
  | aff x1 y1 =>
    cases q with
    | inf => exact Except.ok.inj ((ecadd_inf_right _).symm.trans h) ▸ hp
    | aff x2 y2 =>
      rcases ecadd_aff_cases x1 y1 x2 y2 with e | ⟨m, e⟩ | e <;> rw [e] at h
      · exact Except.ok.inj h ▸ rfl
      · exact Except.ok.inj h ▸ chord_inRange m x1 y1 x2
      · cases h

/-! ## Casts -/

/-- The field of p elements. -/
abbrev F := ZMod P_FIELD

theorem cast_fadd (a b : Nat) : ((fadd a b : Nat) : F) = a + b := by simp [fadd]

theorem cast_fmul (a b : Nat) : ((fmul a b : Nat) : F) = a * b := by simp [fmul]

theorem cast_fsub {a b : Nat} (hb : b ≤ P_FIELD) : ((fsub a b : Nat) : F) = a - b := by
  simp [fsub, Nat.cast_sub hb, sub_eq_add_neg]

theorem cast_finv (a : Nat) : ((finv a : Nat) : F) = (a : F)⁻¹ := by
  have := P_FIELD_fact
  rw [finv_eq, ZMod.natCast_mod, Nat.cast_pow]
  by_cases h : (a : F) = 0
  · rw [h, inv_zero]
    exact zero_pow (by decide)
  · refine eq_inv_of_mul_eq_one_left ?_
    rw [← pow_succ]
    exact ZMod.pow_card_sub_one_eq_one h

theorem cast_inj {a b : Nat} (ha : a < P_FIELD) (hb : b < P_FIELD) : (a : F) = b ↔ a = b := by
  rw [ZMod.natCast_eq_natCast_iff, Nat.ModEq, Nat.mod_eq_of_lt ha, Nat.mod_eq_of_lt hb]

theorem cast_eq_zero {a : Nat} (ha : a < P_FIELD) : (a : F) = 0 ↔ a = 0 := by
  rw [← Nat.cast_zero, cast_inj ha P_FIELD_pos]

end Sys2Proof.Machine
end

