-- ==== Sys2Proof/Laws/Group.lean ====
section
/-! SUPPORT. ecadd is the addition of the group of the curve y² = x³ + 7 as Mathlib has it, and scalarMulG is the multiple of
the base point (43_point.md R95 to R98, 44_scalar_mult.md R103, R104). -/

-- One kernel check at a time: each check on a thread of its own would wait for all before it.
set_option Elab.async false

namespace Sys2Proof.Machine

/-! ## The curve -/

/-- y² = x³ + 7 over the field of p elements (00_scope.md R7). -/
def secp256k1 : WeierstrassCurve.Affine F := ⟨0, 0, 0, 0, 7⟩

theorem two_ne_zero_F : (2 : F) ≠ 0 := by
  have : ((2 : Nat) : F) ≠ 0 := fun h => absurd ((cast_eq_zero (by decide)).1 h) (by decide)
  simpa using this

/-- "−7 is not a cube modulo p" (43_point.md R98): its power to (p - 1) / 3 is not 1. -/
theorem neg_seven_not_cube (x : F) : x ^ 3 + 7 ≠ 0 := by
  have := P_FIELD_fact
  intro h
  have h7 : x ^ 3 = ((P_FIELD - 7 : Nat) : F) := by
    rw [Nat.cast_sub (by decide), ZMod.natCast_self, zero_sub, eq_neg_iff_add_eq_zero]
    exact_mod_cast h
  have hx : x ≠ 0 := by
    rintro rfl
    rw [zero_pow (by decide), zero_add] at h
    have : ((7 : Nat) : F) = 0 := by exact_mod_cast h
    exact absurd ((cast_eq_zero (by decide)).1 this) (by decide)
  have h1 : (((P_FIELD - 7) ^ ((P_FIELD - 1) / 3) : Nat) : F) = ((1 : Nat) : F) := by
    rw [Nat.cast_pow, ← h7, ← pow_mul, show 3 * ((P_FIELD - 1) / 3) = P_FIELD - 1 by decide +kernel, Nat.cast_one]
    exact ZMod.pow_card_sub_one_eq_one hx
  rw [← ZMod.natCast_mod, ← fpow_eq 256 _ _ (by decide +kernel), cast_inj (by decide +kernel) (by decide)] at h1
  exact absurd h1 (by decide +kernel)

theorem onCurve_iff {x y : Nat} : (Point.aff x y).OnCurve ↔
    x < P_FIELD ∧ y < P_FIELD ∧ secp256k1.Equation (x : F) (y : F) := by
  simp only [Point.OnCurve, WeierstrassCurve.Affine.equation_iff, secp256k1, zero_mul, add_zero]
  refine and_congr_right fun _ => and_congr_right fun _ => ?_
  rw [show ((x : F) ^ 3 + 7) = ((x ^ 3 + 7 : Nat) : F) by push_cast; rfl,
    show ((y : F) ^ 2) = ((y ^ 2 : Nat) : F) by push_cast; rfl, ZMod.natCast_eq_natCast_iff]
  rfl

/-- A point of the curve has y ≠ 0. -/
theorem y_ne_zero {x y : F} (h : secp256k1.Equation x y) : y ≠ 0 := by
  rintro rfl
  rw [WeierstrassCurve.Affine.equation_iff] at h
  simp only [secp256k1, zero_mul, add_zero] at h
  exact neg_seven_not_cube x (by rw [← h]; exact zero_pow (by decide))

theorem nonsingular {x y : F} (h : secp256k1.Equation x y) : secp256k1.Nonsingular x y := by
  have := P_FIELD_fact
  refine (WeierstrassCurve.Affine.nonsingular_iff' ..).2 ⟨h, .inr ?_⟩
  simp only [secp256k1, zero_mul, add_zero]
  exact mul_ne_zero two_ne_zero_F (y_ne_zero h)

/-- The model's point q is the point e of the group. -/
def Represents : Point → secp256k1.Point → Prop
  | .inf, e => e = 0
  | .aff x y, e => x < P_FIELD ∧ y < P_FIELD ∧ ∃ h, e = .some (x : F) (y : F) h

theorem Represents.onCurve {q : Point} {e : secp256k1.Point} (h : Represents q e) : q.OnCurve := by
  cases q with
  | inf => trivial
  | aff x y =>
    obtain ⟨hx, hy, hn, -⟩ := h
    exact onCurve_iff.2 ⟨hx, hy, hn.1⟩

theorem Point.OnCurve.represents {q : Point} (h : q.OnCurve) : ∃ e, Represents q e := by
  cases q with
  | inf => exact ⟨0, rfl⟩
  | aff x y =>
    obtain ⟨hx, hy, he⟩ := onCurve_iff.1 h
    exact ⟨_, hx, hy, nonsingular he, rfl⟩

theorem Represents.inj {q q' : Point} {e : secp256k1.Point} (h : Represents q e) (h' : Represents q' e) : q = q' := by
  cases q with
  | inf =>
    cases q' with
    | inf => rfl
    | aff x y =>
      obtain ⟨-, -, hn, rfl⟩ := h'
      exact absurd h (WeierstrassCurve.Affine.Point.some_ne_zero hn)
  | aff x y =>
    obtain ⟨hx, hy, hn, rfl⟩ := h
    cases q' with
    | inf => exact absurd h' (WeierstrassCurve.Affine.Point.some_ne_zero hn)
    | aff x' y' =>
      obtain ⟨hx', hy', hn', he⟩ := h'
      obtain ⟨e1, e2⟩ := WeierstrassCurve.Affine.Point.some.inj he
      rw [(cast_inj hx hx').1 e1, (cast_inj hy hy').1 e2]

theorem Represents.eq_inf_iff {q : Point} {e : secp256k1.Point} (h : Represents q e) : q = .inf ↔ e = 0 := by
  constructor
  · rintro rfl
    exact h
  · rintro rfl
    exact h.inj (q' := .inf) rfl

/-- The chord's coordinates are the group's addition formulas for slope m. -/
theorem chord_cast {m x1 y1 x2 : Nat} (h1 : x1 < P_FIELD) (h2 : y1 < P_FIELD) (h3 : x2 < P_FIELD) :
    ∃ x3 y3, chord m x1 y1 x2 = .aff x3 y3 ∧ x3 < P_FIELD ∧ y3 < P_FIELD ∧
      (x3 : F) = secp256k1.addX (x1 : F) (x2 : F) (m : F) ∧
      (y3 : F) = secp256k1.addY (x1 : F) (x2 : F) (y1 : F) (m : F) := by
  refine ⟨_, _, rfl, fsub_lt _ _, fsub_lt _ _, ?_, ?_⟩
  · rw [cast_fsub h3.le, cast_fsub h1.le, cast_fmul]
    simp only [WeierstrassCurve.Affine.addX, secp256k1]
    ring
  · rw [cast_fsub h2.le, cast_fmul, cast_fsub (fsub_lt _ _).le, cast_fsub h3.le, cast_fsub h1.le, cast_fmul]
    simp only [WeierstrassCurve.Affine.addY, WeierstrassCurve.Affine.negAddY, WeierstrassCurve.Affine.negY,
      WeierstrassCurve.Affine.addX, secp256k1]
    ring

/-- The base point is on the curve. -/
theorem basePoint_onCurve : basePoint.OnCurve := by
  refine ⟨by decide, by decide, ?_⟩
  decide +kernel

/-- n times the base point is the point at infinity: evaluated. -/
theorem scalarMulG_order : scalarMulG N_ORDER = .ok .inf := by decide +kernel

section

variable [Fact P_FIELD.Prime]

/-- `ecadd` is the addition of the group, and never fails (43_point.md R95, R98). -/
theorem ecadd_represents {p q : Point} {e e' : secp256k1.Point} (hp : Represents p e) (hq : Represents q e') :
    ∃ r, ecadd p q = .ok r ∧ Represents r (e + e') := by
  cases p with
  | inf => exact ⟨q, ecadd_inf_left q, by rw [show e = 0 from hp, zero_add]; exact hq⟩
  | aff x1 y1 =>
    cases q with
    | inf => exact ⟨_, ecadd_inf_right _, by rw [show e' = 0 from hq, add_zero]; exact hp⟩
    | aff x2 y2 =>
      obtain ⟨hx1, hy1, hn1, rfl⟩ := hp
      obtain ⟨hx2, hy2, hn2, rfl⟩ := hq
      have hneg : ∀ x y : F, secp256k1.negY x y = -y := fun x y => by
        simp [WeierstrassCurve.Affine.negY, secp256k1]
      by_cases hx : x1 = x2
      · subst hx
        by_cases hs : (y1 + y2) % P_FIELD = 0
        · have hy : (y1 : F) = secp256k1.negY (x1 : F) (y2 : F) := by
            rw [hneg, eq_neg_iff_add_eq_zero, ← Nat.cast_add, ← ZMod.natCast_mod, hs, Nat.cast_zero]
          exact ⟨_, ecadd_opposite hs, WeierstrassCurve.Affine.Point.add_of_Y_eq rfl hy⟩
        · have hy : (y1 : F) ≠ secp256k1.negY (x1 : F) (y2 : F) := by
            rw [hneg, ne_eq, eq_neg_iff_add_eq_zero, ← Nat.cast_add, ← ZMod.natCast_mod,
              cast_eq_zero (Nat.mod_lt _ P_FIELD_pos)]
            exact hs
          have he : y1 = y2 := (cast_inj hy1 hy2).1 (WeierstrassCurve.Affine.Y_eq_of_Y_ne hn1.1 hn2.1 rfl hy)
          subst he
          obtain ⟨x3, y3, hc, h3, h4, h5, h6⟩ :=
            chord_cast (m := fmul (fmul 3 (fmul x1 x1)) (finv (fadd y1 y1))) hx1 hy1 hx1
          have hm : ((fmul (fmul 3 (fmul x1 x1)) (finv (fadd y1 y1)) : Nat) : F) =
              secp256k1.slope (x1 : F) (x1 : F) (y1 : F) (y1 : F) := by
            rw [WeierstrassCurve.Affine.slope_of_Y_ne rfl hy, hneg, cast_fmul, cast_finv, cast_fadd, cast_fmul,
              cast_fmul]
            simp only [secp256k1, div_eq_mul_inv]
            push_cast
            ring
          rw [hm] at h5 h6
          refine ⟨_, (ecadd_tangent hs).trans (congrArg _ hc), h3, h4, ?_⟩
          rw [h5, h6]
          exact ⟨_, WeierstrassCurve.Affine.Point.add_of_Y_ne hy⟩
      · have hxF : (x1 : F) ≠ (x2 : F) := fun h => hx ((cast_inj hx1 hx2).1 h)
        have hd : fsub x2 x1 ≠ 0 := by
          rw [ne_eq, ← cast_eq_zero (fsub_lt _ _), cast_fsub hx1.le, sub_eq_zero]
          exact fun h => hxF h.symm
        obtain ⟨x3, y3, hc, h3, h4, h5, h6⟩ :=
          chord_cast (m := fmul (fsub y2 y1) (finv (fsub x2 x1))) hx1 hy1 hx2
        have hm : ((fmul (fsub y2 y1) (finv (fsub x2 x1)) : Nat) : F) =
            secp256k1.slope (x1 : F) (x2 : F) (y1 : F) (y2 : F) := by
          rw [WeierstrassCurve.Affine.slope_of_X_ne hxF, cast_fmul, cast_finv, cast_fsub hy1.le, cast_fsub hx1.le,
            ← neg_sub (x1 : F), ← neg_sub (y1 : F), inv_neg, neg_mul_neg, div_eq_mul_inv]
        rw [hm] at h5 h6
        refine ⟨_, (ecadd_chord hx hd).trans (congrArg _ hc), h3, h4, ?_⟩
        rw [h5, h6]
        exact ⟨_, WeierstrassCurve.Affine.Point.add_of_X_ne hxF⟩

/-! ## The multiples of the base point (44_scalar_mult.md R103, R104) -/

/-- The loop adds the multiples its bits call for: the bits of k from i on, `fuel` of them. -/
theorem scalarLoop_represents (k fuel i : Nat) {r x : Point} {e e' : secp256k1.Point} (hr : Represents r e)
    (hx : Represents x e') :
    ∃ q, scalarLoop k fuel i r x = .ok q ∧ Represents q (e + (k / 2 ^ i % 2 ^ fuel) • e') := by
  induction fuel generalizing i r x e e' with
  | zero => exact ⟨r, rfl, by simpa [Nat.mod_one] using hr⟩
  | succ fuel ih =>
    obtain ⟨x', hd, hx'⟩ := ecadd_represents hx hx
    have hsplit : k / 2 ^ i % 2 ^ (fuel + 1) = k / 2 ^ i % 2 + 2 * (k / 2 ^ (i + 1) % 2 ^ fuel) := by
      rw [pow_succ, mul_comm, Nat.mod_mul, pow_succ, Nat.div_div_eq_div_mul]
    have htwo : ∀ m : Nat, (2 * m) • e' = m • (e' + e') := fun m => by rw [← two_nsmul, ← mul_nsmul]
    have hbit : k.testBit i = decide (k / 2 ^ i % 2 = 1) := by
      rw [Nat.testBit_eq_decide_div_mod_eq]
    cases hb : k.testBit i
    · have h0 : k / 2 ^ i % 2 = 0 := by
        rw [hbit, decide_eq_false_iff_not] at hb
        omega
      obtain ⟨q, hq, hrep⟩ := ih (i + 1) hr hx'
      refine ⟨q, by simp only [scalarLoop, hb, Bool.false_eq_true, if_false, hd, hq], ?_⟩
      rw [hsplit, h0, zero_add, htwo]
      exact hrep
    · have h1 : k / 2 ^ i % 2 = 1 := by
        rwa [hbit, decide_eq_true_iff] at hb
      obtain ⟨r', ha, hr'⟩ := ecadd_represents hr hx
      obtain ⟨q, hq, hrep⟩ := ih (i + 1) hr' hx'
      refine ⟨q, by simp only [scalarLoop, hb, if_true, ha, hd, hq], ?_⟩
      rw [hsplit, h1, add_nsmul, one_nsmul, ← add_assoc, htwo]
      exact hrep

/-- scalarMulG is the multiple of the base point (44_scalar_mult.md R104), for every 256-bit scalar. -/
theorem scalarMulG_represents {g : secp256k1.Point} (hg : Represents basePoint g) {k : Nat} (hk : k < 2 ^ 256) :
    ∃ q, scalarMulG k = .ok q ∧ Represents q (k • g) := by
  obtain ⟨q, hq, hrep⟩ := scalarLoop_represents k 256 0 (r := .inf) (e := 0) rfl hg
  refine ⟨q, hq, ?_⟩
  rwa [zero_add, pow_zero, Nat.div_one, Nat.mod_eq_of_lt hk] at hrep

/-- Repeated addition is the multiple too. -/
theorem repeatedSum_represents {g : secp256k1.Point} (hg : Represents basePoint g) (k : Nat) :
    ∃ q, repeatedSum k = .ok q ∧ Represents q (k • g) := by
  induction k with
  | zero => exact ⟨.inf, rfl, zero_nsmul g⟩
  | succ k ih =>
    obtain ⟨q, hq, hrep⟩ := ih
    obtain ⟨r, hr, hrep'⟩ := ecadd_represents hrep hg
    exact ⟨r, by simp only [repeatedSum, hq, hr], by rw [succ_nsmul]; exact hrep'⟩

/-- The base point has order n. -/
theorem addOrderOf_basePoint {g : secp256k1.Point} (hg : Represents basePoint g) : addOrderOf g = N_ORDER := by
  have := Fact.mk Laws.prime_N_ORDER
  refine addOrderOf_eq_prime ?_ fun h => ?_
  · obtain ⟨q, hq, hrep⟩ := scalarMulG_represents hg (k := N_ORDER) (by decide)
    rw [scalarMulG_order] at hq
    rw [← Except.ok.inj hq] at hrep
    exact hrep
  · exact absurd ((hg.eq_inf_iff).2 h) (by decide)

end

end Sys2Proof.Machine
end

