-- ==== Sys2Proof/Laws/Step.lean ====
section
/-! SUPPORT. What the host port, the engine and a step can do, said once. -/

namespace Sys2Proof.Machine

/-! ## Addresses -/

theorem aligned_iff (a : Addr) : aligned a = true ↔ bits a 1 0 = 0 := by simp [aligned, bits]

theorem lowReg_ctrl {n : Nat} (h : lowReg n = .ctrl) : n = 0x008 := by
  unfold lowReg at h
  split at h <;> first | rfl | cases h

theorem hostReg_low {a : Addr} (h : a.toNat < 0x100) : hostReg a = lowReg a.toNat := if_pos h

theorem hostReg_lane {a : Addr} (h : 0x100 ≤ a.toNat) (h' : a.toNat < 0x1C8) :
    hostReg a = if a.toNat % 8 = 0 then .laneLo (laneNum ((a.toNat - 0x100) / 8))
      else .laneHi (laneNum ((a.toNat - 0x100) / 8)) := by
  rw [hostReg, if_neg (by omega), if_pos h']

theorem hostReg_gap {a : Addr} (h : 0x1C8 ≤ a.toNat) (h' : a.toNat < 0x200) : hostReg a = .reserved := by
  rw [hostReg, if_neg (by omega), if_neg (by omega), if_pos h']

theorem hostReg_v {a : Addr} (h : 0x200 ≤ a.toNat) (h' : a.toNat < 0x400) :
    hostReg a = .vWord (vNum ((a.toNat - 0x200) / 32)) (wordNum (a.toNat % 32 / 4)) := by
  rw [hostReg, if_neg (by omega), if_neg (by omega), if_neg (by omega), if_pos h']

theorem hostReg_inf {a : Addr} (h : a.toNat = 0x400) : hostReg a = .inf := by
  rw [hostReg, if_neg (by omega), if_neg (by omega), if_neg (by omega), if_neg (by omega), if_pos h]

theorem hostReg_high {a : Addr} (h : 0x400 < a.toNat) : hostReg a = .reserved := by
  rw [hostReg, if_neg (by omega), if_neg (by omega), if_neg (by omega), if_neg (by omega), if_neg (by omega)]

/-- CTRL is at 0x008 only. -/
theorem hostReg_ctrl {a : Addr} (h : hostReg a = .ctrl) : a = 0x008 := by
  unfold hostReg at h
  apply BitVec.eq_of_toNat_eq
  split at h
  · exact lowReg_ctrl h
  · repeat' split at h
    all_goals cases h

/-! ## The host port -/

/-- A host write leaves the list of events, the answers to the host and FATAL as they are, but for SRST. -/
theorem writeReg_keeps (s : State) (r : HostReg) (v : Word) :
    (writeReg s r v).events = s.events ∧ (writeReg s r v).readLog = s.readLog := by
  cases r with
  | ctrl =>
    simp only [writeReg, ctrlWrite]
    repeat' split
    all_goals exact ⟨rfl, rfl⟩
  | _ => exact ⟨rfl, rfl⟩

theorem hostRead_aligned (s : State) {a : Addr} (h : aligned a = true) :
    ∃ w d, hostRead s a = .next { s with readLog := (a, w) :: s.readLog, draws := d } := by
  rw [hostRead, if_pos h]
  split
  · exact ⟨_, _, rfl⟩
  · exact ⟨_, s.draws, rfl⟩

theorem hostWrite_aligned (s : State) {a : Addr} (v : Word) (h : aligned a = true) :
    hostWrite s a v = .next { s with ovr := true } ∨ hostWrite s a v = .next (writeReg s (hostReg a) v) := by
  rw [hostWrite, if_pos h]
  split
  · exact .inl rfl
  · exact .inr rfl

/-! ## The engine -/

/-- One completion (70_reset_and_hazards.md R126): idle, HALTED, ILLEGAL, or the decoded command. -/
theorem engineStep_cases (s : State) :
    (s.inflight = none ∧ engineStep s = .next s) ∨
    ∃ w, s.inflight = some w ∧
      ((s.fatal = true ∧ engineStep s = .next (s.complete .halted)) ∨
       (s.fatal = false ∧ (∃ e, decode w = .error e) ∧ engineStep s = .next (s.complete .illegal)) ∨
       (s.fatal = false ∧ ∃ i, decode w = .ok i ∧ engineStep s = exec i s)) := by
  unfold engineStep
  cases hw : s.inflight with
  | none => exact .inl ⟨rfl, rfl⟩
  | some w =>
    refine .inr ⟨w, rfl, ?_⟩
    cases hf : s.fatal
    · cases hd : decode w with
      | error e => exact .inr (.inl ⟨rfl, ⟨e, rfl⟩, by simp [hd]⟩)
      | ok i => exact .inr (.inr ⟨rfl, i, rfl, by simp [hd]⟩)
    · exact .inl ⟨rfl, rfl⟩

/-- The engine always answers a next state, with nothing in flight and the host's list as it was. -/
theorem engineStep_next (s : State) :
    ∃ t, engineStep s = .next t ∧ t.inflight = none ∧ t.events = s.events := by
  rcases engineStep_cases s with ⟨h, e⟩ | ⟨w, -, ⟨-, e⟩ | ⟨-, -, e⟩ | ⟨-, i, -, e⟩⟩
  · exact ⟨_, e, h, rfl⟩
  · exact ⟨_, e, rfl, rfl⟩
  · exact ⟨_, e, rfl, rfl⟩
  · rcases exec_cases i s with ⟨t, h, e'⟩ | ⟨c, -, e'⟩
    · exact ⟨_, e.trans e', rfl, (commandResult_frame h).fields.2.2.2.2.2.2.2.2.2.1⟩
    · exact ⟨_, e.trans e', rfl, rfl⟩

/-! ## Steps -/

theorem step_nil {s : State} (h : s.events = []) : step s = engineStep s := by simp only [step, h]

theorem step_cons {s : State} {e : Event} {rest : List Event} (h : s.events = e :: rest) :
    step s = handle { s with events := rest } e := by simp only [step, h]

theorem run_succ (k : Nat) (s : State) :
    Host.Core.run core (k + 1) s =
      match step s with
      | .next t => Host.Core.run core k t
      | .fault r => .fault r
      | .refused r => .refused r := by
  simp only [Host.Core.run]
  cases h : step s <;> simp [core, h]

end Sys2Proof.Machine
end

