-- ==== Sys2Proof/Laws/HostPort.lean ====
section
/-! SUPPORT. The register map, address by address and register by register: which address is which register, and what a write
of one register leaves in it and in the others (20_memory.md R37 to R40). -/

-- One kernel check at a time: each check on a thread of its own would wait for all before it.
set_option Elab.async false

namespace Sys2Proof.Machine

/-! ## Addresses -/

theorem lowReg_reserved {n : Nat} (h : 0x28 ≤ n) : lowReg n = .reserved := by
  unfold lowReg
  split <;> first | omega | rfl

/-- The reserved addresses (20_memory.md R39). -/
theorem hostReg_reserved {a : Addr} (h : (0x028 ≤ a.toNat ∧ a.toNat ≤ 0x0FC) ∨ (0x1C8 ≤ a.toNat ∧ a.toNat ≤ 0x1FC) ∨
    0x404 ≤ a.toNat) : hostReg a = .reserved := by
  rcases h with h | h | h
  · rw [hostReg_low (by omega), lowReg_reserved h.1]
  · exact hostReg_gap h.1 (by omega)
  · exact hostReg_high (by omega)

/-- The five kinds of address. -/
theorem hostReg_cases (c : Addr) :
    (c.toNat < 0x100 ∧ hostReg c = lowReg c.toNat) ∨
    (0x100 ≤ c.toNat ∧ c.toNat < 0x1C8 ∧
      hostReg c = if c.toNat % 8 = 0 then .laneLo (laneNum ((c.toNat - 0x100) / 8))
        else .laneHi (laneNum ((c.toNat - 0x100) / 8))) ∨
    hostReg c = .reserved ∨
    (0x200 ≤ c.toNat ∧ c.toNat < 0x400 ∧
      hostReg c = .vWord (vNum ((c.toNat - 0x200) / 32)) (wordNum (c.toNat % 32 / 4))) ∨
    (c.toNat = 0x400 ∧ hostReg c = .inf) := by
  by_cases h1 : c.toNat < 0x100
  · exact .inl ⟨h1, hostReg_low h1⟩
  by_cases h2 : c.toNat < 0x1C8
  · exact .inr (.inl ⟨by omega, h2, hostReg_lane (by omega) h2⟩)
  by_cases h3 : c.toNat < 0x200
  · exact .inr (.inr (.inl (hostReg_gap (by omega) h3)))
  by_cases h4 : c.toNat < 0x400
  · exact .inr (.inr (.inr (.inl ⟨by omega, h4, hostReg_v (by omega) h4⟩)))
  by_cases h5 : c.toNat = 0x400
  · exact .inr (.inr (.inr (.inr ⟨h5, hostReg_inf h5⟩)))
  · exact .inr (.inr (.inl (hostReg_high (by omega))))

theorem lowReg_ne_laneLo (n : Nat) (i : Fin 25) : lowReg n ≠ .laneLo i := by unfold lowReg; split <;> simp

theorem lowReg_ne_laneHi (n : Nat) (i : Fin 25) : lowReg n ≠ .laneHi i := by unfold lowReg; split <;> simp

theorem lowReg_ne_vWord (n : Nat) (i : VReg) (j : Fin 8) : lowReg n ≠ .vWord i j := by unfold lowReg; split <;> simp

theorem lowReg_ne_inf (n : Nat) : lowReg n ≠ .inf := by unfold lowReg; split <;> simp

theorem lowReg_inj {m n : Nat} (h : lowReg m = lowReg n) (h1 : lowReg m ≠ .reserved) : m = n := by
  revert h h1
  unfold lowReg
  split <;> split <;> simp

/-- Two aligned addresses of one register are one address, unless it is reserved (20_memory.md R37). -/
theorem hostReg_inj {a b : Addr} (ha : aligned a = true) (hb : aligned b = true) (h : hostReg a = hostReg b) (hr : hostReg a ≠ .reserved) : a = b := by
  apply BitVec.eq_of_toNat_eq
  simp [aligned] at ha hb
  rcases hostReg_cases a with ⟨a1, a2⟩ | ⟨a1, a1', a2⟩ | a2 | ⟨a1, a1', a2⟩ | ⟨a1, a2⟩ <;>
  rcases hostReg_cases b with ⟨b1, b2⟩ | ⟨b1, b1', b2⟩ | b2 | ⟨b1, b1', b2⟩ | ⟨b1, b2⟩ <;> rw [a2] at hr <;> rw [a2, b2] at h
  · exact lowReg_inj h hr
  · split at h
    · exact absurd h (lowReg_ne_laneLo _ _)
    · exact absurd h (lowReg_ne_laneHi _ _)
  · exact absurd h hr
  · exact absurd h (lowReg_ne_vWord _ _ _)
  · exact absurd h (lowReg_ne_inf _)
  · split at h
    · exact absurd h.symm (lowReg_ne_laneLo _ _)
    · exact absurd h.symm (lowReg_ne_laneHi _ _)
  · split at h <;> split at h <;> simp [laneNum] at h <;> omega
  · exact absurd h hr
  · split at h <;> simp at h
  · split at h <;> simp at h
  · exact absurd rfl hr
  · exact absurd rfl hr
  · exact absurd rfl hr
  · exact absurd rfl hr
  · exact absurd rfl hr
  · exact absurd h.symm (lowReg_ne_vWord _ _ _)
  · split at h <;> simp at h
  · exact absurd h hr
  · simp [vNum, wordNum] at h; omega
  · simp at h
  · exact absurd h.symm (lowReg_ne_inf _)
  · split at h <;> simp at h
  · exact absurd h hr
  · simp at h
  · omega

/-! ## Words -/

theorem infWord_getLsbD (s : State) (j : PReg) : (infWord s).getLsbD j.val = s.inf[j] := by
  have h : ∀ a0 a1 a2 a3 a4 a5 a6 a7 : Bool, ∀ j : PReg,
      (0#24 ++ BitVec.ofBool a7 ++ BitVec.ofBool a6 ++ BitVec.ofBool a5 ++ BitVec.ofBool a4 ++ BitVec.ofBool a3 ++
        BitVec.ofBool a2 ++ BitVec.ofBool a1 ++ BitVec.ofBool a0).getLsbD j.val =
      [a0, a1, a2, a3, a4, a5, a6, a7].getD j.val false := by decide +kernel
  rw [infWord, h]
  match j with
  | 0 => rfl
  | 1 => rfl
  | 2 => rfl
  | 3 => rfl
  | 4 => rfl
  | 5 => rfl
  | 6 => rfl
  | 7 => rfl

theorem infWord_lt (s : State) : (infWord s).toNat < 2 ^ 8 := by
  have h : ∀ a0 a1 a2 a3 a4 a5 a6 a7 : Bool,
      (0#24 ++ BitVec.ofBool a7 ++ BitVec.ofBool a6 ++ BitVec.ofBool a5 ++ BitVec.ofBool a4 ++ BitVec.ofBool a3 ++
        BitVec.ofBool a2 ++ BitVec.ofBool a1 ++ BitVec.ofBool a0).toNat < 2 ^ 8 := by decide +kernel
  exact h _ _ _ _ _ _ _ _

/-- Two INF vectors that read as one word are one vector. -/
theorem infWord_write (s : State) (v : Word) :
    infWord { s with inf := Vector.ofFn fun j => v.getLsbD j } = v &&& 0x000000FF := by
  apply BitVec.eq_of_getLsbD_eq
  intro i hi
  have hm : ∀ i : Fin 32, (0x000000FF : Word).getLsbD i = decide (i.val < 8) := by decide
  rw [BitVec.getLsbD_and, hm ⟨i, hi⟩]
  by_cases h : i < 8
  · have := infWord_getLsbD { s with inf := Vector.ofFn fun j => v.getLsbD j } ⟨i, h⟩
    simp only [Fin.getElem_fin, Vector.getElem_ofFn] at this
    rw [this]
    simp [h]
  · have hlt := infWord_lt { s with inf := Vector.ofFn fun j => v.getLsbD j }
    rw [BitVec.getLsbD, Nat.testBit_lt_two_pow (hlt.trans_le (Nat.pow_le_pow_right (by decide) (by omega)))]
    simp [h]

theorem word_append_getLsbD (x y : Word) (i : Nat) :
    BitVec.getLsbD (w := 64) (x ++ y) i = if i < 32 then y.getLsbD i else x.getLsbD (i - 32) :=
  BitVec.getLsbD_append

theorem loWord_getLsbD (v : BitVec 64) {i : Nat} (h : i < 32) : (loWord v).getLsbD i = v.getLsbD i := by
  rw [loWord, BitVec.getLsbD_extractLsb', Nat.zero_add]
  simp [h]

theorem hiWord_getLsbD (v : BitVec 64) {i : Nat} (h : i < 32) : (hiWord v).getLsbD i = v.getLsbD (32 + i) := by
  rw [hiWord, BitVec.getLsbD_extractLsb']
  simp [h]

theorem loWord_append (x y : Word) : loWord (x ++ y) = y := by
  apply BitVec.eq_of_getLsbD_eq
  intro i hi
  rw [loWord_getLsbD _ hi, word_append_getLsbD, if_pos hi]

theorem hiWord_append (x y : Word) : hiWord (x ++ y) = x := by
  apply BitVec.eq_of_getLsbD_eq
  intro i hi
  rw [hiWord_getLsbD _ hi, word_append_getLsbD, if_neg (by omega), Nat.add_sub_cancel_left]

theorem loWord_setLoWord (x : BitVec 64) (v : Word) : loWord (setLoWord x v) = v := loWord_append _ _

theorem hiWord_setLoWord (x : BitVec 64) (v : Word) : hiWord (setLoWord x v) = hiWord x := hiWord_append _ _

theorem hiWord_setHiWord (x : BitVec 64) (v : Word) : hiWord (setHiWord x v) = v := hiWord_append _ _

theorem loWord_setHiWord (x : BitVec 64) (v : Word) : loWord (setHiWord x v) = loWord x := loWord_append _ _

/-- SPCFG after a write of v: its low half. -/
theorem spcfgWord_write (s : State) (v : Word) :
    spcfgWord { s with spRate := v.extractLsb' 0 8, spSuffix := v.extractLsb' 8 8 } = v &&& 0x0000FFFF := by
  apply BitVec.eq_of_getLsbD_eq
  intro i hi
  have hm : ∀ i : Fin 32, (0x0000FFFF : Word).getLsbD i = decide (i.val < 16) := by decide
  rw [BitVec.getLsbD_and, hm ⟨i, hi⟩]
  simp only [spcfgWord, BitVec.getLsbD_append, BitVec.getLsbD_extractLsb', BitVec.getLsbD_zero]
  by_cases h : i < 8
  · have : i < 16 := by omega
    simp [h, this]
  · by_cases h' : i < 16
    · have h1 : i - 8 < 8 := by omega
      have h2 : 8 + (i - 8) = i := by omega
      simp [h, h', h1, h2]
    · have h1 : ¬ i - 8 < 8 := by omega
      simp [h, h', h1]

/-! ## Registers after a write -/

/-- A write of a register that only stores leaves every other register's word as it was. -/
theorem readReg_writeReg_ne (s : State) {r r' : HostReg} (v : Word) (hc : r ≠ .cmd) (hc' : r ≠ .ctrl) (h : r' ≠ r) :
    readReg (writeReg s r v) r' = readReg s r' := by
  cases r with
  | cmd => exact absurd rfl hc
  | ctrl => exact absurd rfl hc'
  | dinLo => cases r' <;> first | rfl | exact absurd rfl h | exact hiWord_setLoWord _ _
  | dinHi => cases r' <;> first | rfl | exact absurd rfl h | exact loWord_setHiWord _ _
  | laneLo i =>
    cases r' with
    | laneLo k =>
      have hk : i.val ≠ k.val := fun e => h (by rw [Fin.ext e])
      simp [readReg, writeReg, Vector.getElem_set_ne, hk]
    | laneHi k =>
      by_cases hk : i = k
      · subst hk
        simp [readReg, writeReg, hiWord_setLoWord]
      · have hk' : i.val ≠ k.val := fun e => hk (Fin.ext e)
        simp [readReg, writeReg, Vector.getElem_set_ne, hk']
    | _ => rfl
  | laneHi i =>
    cases r' with
    | laneHi k =>
      have hk : i.val ≠ k.val := fun e => h (by rw [Fin.ext e])
      simp [readReg, writeReg, Vector.getElem_set_ne, hk]
    | laneLo k =>
      by_cases hk : i = k
      · subst hk
        simp [readReg, writeReg, loWord_setHiWord]
      · have hk' : i.val ≠ k.val := fun e => hk (Fin.ext e)
        simp [readReg, writeReg, Vector.getElem_set_ne, hk']
    | _ => rfl
  | vWord i j =>
    cases r' with
    | vWord k l =>
      by_cases hk : i = k
      · subst hk
        have hl : j.val ≠ l.val := fun e => h (by rw [Fin.ext e])
        simp [readReg, writeReg, Vector.getElem_set_ne, hl]
      · have hk' : i.val ≠ k.val := fun e => hk (Fin.ext e)
        simp [readReg, writeReg, Vector.getElem_set_ne, hk']
    | _ => rfl
  | _ => cases r' <;> first | rfl | exact absurd rfl h

/-- DIN, the lanes and the V registers read back what was written. -/
theorem readReg_writeReg_same (s : State) (v : Word) :
    readReg (writeReg s .dinLo v) .dinLo = v ∧ readReg (writeReg s .dinHi v) .dinHi = v ∧
      (∀ i, readReg (writeReg s (.laneLo i) v) (.laneLo i) = v) ∧
      (∀ i, readReg (writeReg s (.laneHi i) v) (.laneHi i) = v) ∧
      ∀ i j, readReg (writeReg s (.vWord i j) v) (.vWord i j) = v := by
  refine ⟨loWord_setLoWord _ _, hiWord_setHiWord _ _, fun i => ?_, fun i => ?_, fun i j => ?_⟩
  · simp [readReg, writeReg, loWord_setLoWord]
  · simp [readReg, writeReg, hiWord_setHiWord]
  · simp [readReg, writeReg]

end Sys2Proof.Machine
end

