-- ==== Sys2Proof/Laws/Keccak.lean ====
section
/-! SUPPORT. Lanes by coordinates: what each step of the permutation writes to a lane (40_keccak_permutation.md R66 to
R71). -/

namespace Sys2Proof.Machine

/-- `rotl64` is the rotation of the lane (00_scope.md R10). -/
theorem rotl64_eq (v : Lane) {r : Nat} (h : r < 64) : rotl64 v r = v.rotateLeft r := by
  rw [BitVec.rotateLeft_def, Nat.mod_eq_of_lt h]
  rfl

theorem rot_lt (x y : Nat) : rot x y < 64 := by
  have h : ∀ e ∈ rotationOffsets, e < 64 := by decide
  unfold rot
  rw [List.getD_eq_getElem?_getD]
  cases h' : rotationOffsets[x + 5 * y]? with
  | none => decide
  | some e => exact h e (List.mem_of_getElem? h')

theorem lane_index {x y : Nat} : x % 5 + 5 * (y % 5) < 25 := by omega

theorem lane_eq (a : Lanes) (x y : Nat) : lane a x y = a[x % 5 + 5 * (y % 5)]'lane_index :=
  laneAt_lt a lane_index

/-- A lane built by coordinates. -/
theorem ofLanes_get (f : Nat → Nat → Lane) {x y : Nat} (hx : x < 5) (hy : y < 5) :
    (ofLanes f)[x + 5 * y]'(by omega) = f x y := by
  have h1 : (x + 5 * y) % 5 = x := by omega
  have h2 : (x + 5 * y) / 5 = y := by omega
  simp only [ofLanes, Vector.getElem_ofFn, h1, h2]

/-- Five entries, read by an index taken mod 5. -/
theorem five_getD {α : Type} (f : Nat → α) (d : α) (x : Nat) :
    [f 0, f 1, f 2, f 3, f 4].getD (x % 5) d = f (x % 5) := by
  have h : x % 5 < 5 := Nat.mod_lt _ (by decide)
  generalize x % 5 = k at h
  match k, h with
  | 0, _ => rfl
  | 1, _ => rfl
  | 2, _ => rfl
  | 3, _ => rfl
  | 4, _ => rfl

end Sys2Proof.Machine
end

