-- ==== Sys2Proof/Laws/PerInstr.lean ====
section
/-! SUPPORT. The families of statements made per command, one lemma per constructor of Instr. -/

/-- The family EncodedFields: the encoding of a well-formed command has RSV = 0 and the OP of its row (30_encoding.md R54,
R55, R57). -/
def Sys2Proof.Laws.EncodedFields.opcode : Sys2Proof.Instr → Nat
  | .kinit => 0x01
  | .kabs _ => 0x02
  | .kfin => 0x03
  | .ksqz _ => 0x04
  | .kperm => 0x05
  | .fadd _ _ _ => 0x10
  | .fsub _ _ _ => 0x11
  | .fmul _ _ _ => 0x12
  | .finv _ _ => 0x13
  | .padd _ _ _ => 0x20
  | .pdbl _ _ => 0x21
  | .pmulg _ _ => 0x22

def Sys2Proof.Laws.EncodedFields.Statement (i : Sys2Proof.Instr) : Prop :=
  i.wellFormed = true →
    Sys2Proof.rsvField (Sys2Proof.encode i) = 0 ∧
      Sys2Proof.opField (Sys2Proof.encode i) = Sys2Proof.Laws.EncodedFields.opcode i

namespace Sys2Proof.Laws.EncodedFields

/-- What every constructor's lemma comes down to: fields that fit. -/
theorem of_fields {op d a b : Nat} (ho : op < 256) (hd : d < 16) (ha : a < 16) (hb : b < 16) :
    rsvField (commandWord op d a b) = 0 ∧ opField (commandWord op d a b) = op :=
  ⟨rsvField_commandWord ho hd ha hb, opField_commandWord ho hd ha hb⟩

theorem count_lt {n : Nat} (h : countOk n = true) : n < 16 := by
  have : 1 ≤ n ∧ n ≤ 8 := by simpa [countOk] using h
  omega

theorem kinit : Statement .kinit := fun _ => of_fields (by decide) (by decide) (by decide) (by decide)
theorem kabs (n : Nat) : Statement (.kabs n) := fun h => of_fields (by decide) (count_lt h) (by decide) (by decide)
theorem kfin : Statement .kfin := fun _ => of_fields (by decide) (by decide) (by decide) (by decide)
theorem ksqz (n : Nat) : Statement (.ksqz n) := fun h => of_fields (by decide) (count_lt h) (by decide) (by decide)
theorem kperm : Statement .kperm := fun _ => of_fields (by decide) (by decide) (by decide) (by decide)
theorem fadd (d a b : VReg) : Statement (.fadd d a b) := fun _ => of_fields (by decide) d.isLt a.isLt b.isLt
theorem fsub (d a b : VReg) : Statement (.fsub d a b) := fun _ => of_fields (by decide) d.isLt a.isLt b.isLt
theorem fmul (d a b : VReg) : Statement (.fmul d a b) := fun _ => of_fields (by decide) d.isLt a.isLt b.isLt
theorem finv (d a : VReg) : Statement (.finv d a) := fun _ => of_fields (by decide) d.isLt a.isLt (by decide)
theorem padd (d a b : PReg) : Statement (.padd d a b) := fun _ =>
  of_fields (by decide) (by omega) (by omega) (by omega)
theorem pdbl (d a : PReg) : Statement (.pdbl d a) := fun _ =>
  of_fields (by decide) (by omega) (by omega) (by decide)
theorem pmulg (d : PReg) (a : VReg) : Statement (.pmulg d a) := fun _ =>
  of_fields (by decide) (by omega) a.isLt (by decide)

end Sys2Proof.Laws.EncodedFields
end

