-- ==== Sys2Proof/Laws/Sponge.lean ====
section
/-! SUPPORT. Absorbing and squeezing byte by byte: what one byte does, that a run of bytes keeps the bookkeeping legal, and how
blocks grow by a byte (41_sponge.md R80 to R85, 10_state.md R16). -/

namespace Sys2Proof.Machine

/-! ## Absorbing -/

/-- A position below the rate moves on by one, without a wrap. -/
theorem pos_succ_toNat {p r : Byte} (h : p.toNat < r.toNat) : (p + 1).toNat = p.toNat + 1 := by
  have hr := r.isLt
  have h1 : (1 : Byte).toNat = 1 := rfl
  rw [BitVec.toNat_add]
  omega

/-- One byte either fills the block, and the lanes are permuted, or moves the position on by one. -/
theorem absorbByte_cases (s : State) (b : Byte) (h : s.pos.toNat < s.arate.toNat) :
    (s.pos.toNat + 1 = s.arate.toNat ∧
      absorbByte s b = { s with lanes := keccakF (xorStateByte s.lanes s.pos.toNat b), pos := 0 }) ∨
    (s.pos.toNat + 1 < s.arate.toNat ∧ (s.pos + 1).toNat = s.pos.toNat + 1 ∧
      absorbByte s b = { s with lanes := xorStateByte s.lanes s.pos.toNat b, pos := s.pos + 1 }) := by
  have hp := pos_succ_toNat h
  by_cases he : s.pos + 1 = s.arate
  · exact .inl ⟨by rw [← hp, he], by simp only [absorbByte, if_pos he]⟩
  · refine .inr ⟨?_, hp, by simp only [absorbByte, if_neg he]⟩
    have : (s.pos + 1).toNat ≠ s.arate.toNat := fun e => he (BitVec.eq_of_toNat_eq e)
    omega

/-- Absorbing keeps the position below the rate. -/
theorem absorb_pos_lt (l : List Byte) (s : State) (h : s.pos.toNat < s.arate.toNat) :
    (l.foldl absorbByte s).pos.toNat < s.arate.toNat := by
  induction l generalizing s with
  | nil => exact h
  | cons b l ih =>
    rw [List.foldl_cons]
    rcases absorbByte_cases s b h with ⟨hf, e⟩ | ⟨hl, hp, e⟩ <;> rw [e]
    · exact ih _ (by show (0 : Byte).toNat < s.arate.toNat; simp; omega)
    · exact ih _ (by show (s.pos + 1).toNat < s.arate.toNat; omega)

theorem absorb_arate (l : List Byte) (s : State) : (l.foldl absorbByte s).arate = s.arate := by
  rw [absorb_frame]

theorem dinBytes_succ (s : State) (n : Nat) : dinBytes s (n + 1) = dinBytes s n ++ [byteOf s.din n] := by
  simp [dinBytes, List.range_succ]

/-- The bytes of a chunk placed in DIN are the bytes KABS absorbs (10_state.md R22). -/
theorem dinBytes_ofBytes (s : State) (c : List Byte) (h : c.length ≤ 8) :
    dinBytes { s with din := ofBytes c } c.length = c := by
  apply List.ext_getElem
  · simp [dinBytes]
  · intro b h1 h2
    simp only [dinBytes, List.getElem_map, List.getElem_range, byteOf_ofBytes c b (by omega)]
    exact List.getD_eq_getElem c 0 h2

/-! ## Squeezing -/

/-- Before a byte is squeezed the position is below the rate, the lanes permuted when the block was used up. -/
theorem refill_cases (s : State) (h : s.pos.toNat ≤ s.arate.toNat) :
    (s.pos.toNat = s.arate.toNat ∧ refill s = { s with lanes := keccakF s.lanes, pos := 0 }) ∨
    (s.pos.toNat < s.arate.toNat ∧ refill s = s) := by
  by_cases he : s.pos = s.arate
  · exact .inl ⟨by rw [he], by rw [refill, if_pos he]⟩
  · refine .inr ⟨?_, by rw [refill, if_neg he]⟩
    have : s.pos.toNat ≠ s.arate.toNat := fun e => he (BitVec.eq_of_toNat_eq e)
    omega

theorem refill_arate (s : State) : (refill s).arate = s.arate := by rw [refill_frame]

theorem squeezeBytes_arate (n : Nat) (s : State) : (squeezeBytes n s).2.arate = s.arate := by
  rw [squeezeBytes_frame]

/-- After a refill there is room for one byte. -/
theorem refill_pos_lt (s : State) (h0 : 1 ≤ s.arate.toNat) (h : s.pos.toNat ≤ s.arate.toNat) :
    (refill s).pos.toNat < s.arate.toNat := by
  rcases refill_cases s h with ⟨-, e⟩ | ⟨hl, e⟩ <;> rw [e]
  · show (0 : Byte).toNat < s.arate.toNat
    simp
    omega
  · exact hl

/-- Squeezing keeps the position within the rate. -/
theorem squeezeBytes_pos_le (n : Nat) (s : State) (h0 : 1 ≤ s.arate.toNat) (h : s.pos.toNat ≤ s.arate.toNat) :
    (squeezeBytes n s).2.pos.toNat ≤ s.arate.toNat := by
  induction n generalizing s with
  | zero => exact h
  | succ n ih =>
    have hlt := refill_pos_lt s h0 h
    have ha := refill_arate s
    have := ih { refill s with pos := (refill s).pos + 1 } (by show 1 ≤ (refill s).arate.toNat; rw [ha]; exact h0)
      (by
        show ((refill s).pos + 1).toNat ≤ (refill s).arate.toNat
        rw [ha, pos_succ_toNat hlt]
        exact hlt)
    rw [ha] at this
    exact this

theorem squeezeBytes_length (n : Nat) (s : State) : (squeezeBytes n s).1.length = n := by
  induction n generalizing s with
  | zero => rfl
  | succ n ih => simp [squeezeBytes, ih]

theorem refill_congr {s t : State} (hl : s.lanes = t.lanes) (hp : s.pos = t.pos) (ha : s.arate = t.arate) :
    (refill s).lanes = (refill t).lanes ∧ (refill s).pos = (refill t).pos ∧ (refill s).arate = (refill t).arate := by
  by_cases h : s.pos = s.arate
  · have h' : t.pos = t.arate := by rw [← hp, ← ha, h]
    rw [refill, if_pos h, refill, if_pos h']
    exact ⟨congrArg keccakF hl, rfl, ha⟩
  · have h' : ¬ t.pos = t.arate := by rw [← hp, ← ha]; exact h
    rw [refill, if_neg h, refill, if_neg h']
    exact ⟨hl, hp, ha⟩

/-- What is squeezed depends on the lanes, the position and the rate alone. -/
theorem squeezeBytes_congr (n : Nat) {s t : State} (hl : s.lanes = t.lanes) (hp : s.pos = t.pos)
    (ha : s.arate = t.arate) : (squeezeBytes n s).1 = (squeezeBytes n t).1 := by
  induction n generalizing s t with
  | zero => rfl
  | succ n ih =>
    obtain ⟨h1, h2, h3⟩ := refill_congr hl hp ha
    simp only [squeezeBytes, h1, h2]
    exact congrArg _ (ih rfl rfl h3)

/-- Two runs of squeezing are one. -/
theorem squeezeBytes_add (m n : Nat) (s : State) :
    squeezeBytes (m + n) s =
      ((squeezeBytes m s).1 ++ (squeezeBytes n (squeezeBytes m s).2).1, (squeezeBytes n (squeezeBytes m s).2).2) := by
  induction m generalizing s with
  | zero => simp [squeezeBytes]
  | succ m ih =>
    rw [Nat.add_right_comm]
    simp only [squeezeBytes, ih, List.cons_append]

/-- The first bytes of DOUT are the bytes squeezed (20_memory.md R42). -/
theorem doutBytes_ofBytes (l : List Byte) (h : l.length ≤ 8) :
    (List.range l.length).map (byteOf (ofBytes l)) = l := by
  apply List.ext_getElem
  · simp
  · intro b h1 h2
    simp only [List.getElem_map, List.getElem_range, byteOf_ofBytes l b (by omega)]
    exact List.getD_eq_getElem l 0 h2

theorem rateBytes_length (r : Nat) (l : Lanes) : (rateBytes r l).length = r := by simp [rateBytes]

theorem rateBytes_drop {r p : Nat} (l : Lanes) (h : p < r) :
    (rateBytes r l).drop p = stateByte l p :: (rateBytes r l).drop (p + 1) := by
  rw [List.drop_eq_getElem_cons (by rw [rateBytes_length]; exact h)]
  simp [rateBytes]

/-- n bytes squeezed from position p are the rest of this block and then whole blocks, cut to n bytes (R83). -/
theorem squeezeBytes_eq_take {r : Nat} (h0 : 1 ≤ r) (n k : Nat) (s : State) (ha : s.arate.toNat = r)
    (h : s.pos.toNat ≤ r) (hn : n ≤ (r - s.pos.toNat) + k * r) :
    (squeezeBytes n s).1 =
      ((rateBytes r s.lanes).drop s.pos.toNat ++ extractions r k (keccakF s.lanes)).take n := by
  induction n generalizing s k with
  | zero => simp [squeezeBytes]
  | succ n ih =>
    rcases refill_cases s (by omega) with ⟨hp, e⟩ | ⟨hp, e⟩
    · obtain ⟨k, rfl⟩ : ∃ j, k = j + 1 := by
        cases k with
        | zero => omega
        | succ k => exact ⟨k, rfl⟩
      have hp' : s.pos.toNat = r := by omega
      have hlen : (rateBytes r s.lanes).drop r = [] := by rw [List.drop_eq_nil_iff, rateBytes_length]
      have hb := rateBytes_drop (keccakF s.lanes) (show 0 < r by omega)
      rw [List.drop_zero] at hb
      have hn' : n ≤ r - 1 + k * r := by
        rw [hp', Nat.sub_self, Nat.add_mul, Nat.one_mul] at hn
        omega
      have := ih k { s with lanes := keccakF s.lanes, pos := 0 + 1 } ha h0 hn'
      simp only [squeezeBytes, e]
      rw [this, hp', hlen, List.nil_append, extractions, hb, List.cons_append, List.take_succ_cons]
      rfl
    · have hp' : s.pos.toNat < r := by omega
      have h1 : (s.pos + 1).toNat = s.pos.toNat + 1 := pos_succ_toNat hp
      have := ih k { s with pos := s.pos + 1 } ha (by rw [h1]; exact hp') (by rw [h1]; omega)
      simp only [squeezeBytes, e]
      rw [this, rateBytes_drop s.lanes hp', List.cons_append, List.take_succ_cons, h1]

/-! ## Blocks -/

theorem xorBlock_nil (l : Lanes) : xorBlock l [] = l := rfl

theorem xorBlock_snoc (l : Lanes) (t : List Byte) (b : Byte) :
    xorBlock l (t ++ [b]) = xorStateByte (xorBlock l t) t.length b := by
  simp [xorBlock, List.zipIdx_append]

/-- Full blocks do not see the bytes after them. -/
theorem block_append {r i : Nat} {data : List Byte} (b : Byte) (h : (i + 1) * r ≤ data.length) :
    ((data ++ [b]).drop (i * r)).take r = (data.drop (i * r)).take r := by
  have h' : i * r + r ≤ data.length := by rwa [Nat.add_mul, Nat.one_mul] at h
  rw [List.drop_append_of_le_length (by omega), List.take_append_of_le_length (by rw [List.length_drop]; omega)]

theorem absorbBlocks_prefix (r : Nat) (data : List Byte) (b : Byte) :
    (List.range (data.length / r)).foldl
        (fun l i => keccakF (xorBlock l (((data ++ [b]).drop (i * r)).take r))) (Vector.replicate 25 0) =
      absorbBlocks r data := by
  rw [absorbBlocks]
  apply List.foldl_ext
  intro l i hi
  rw [block_append b (by
    have : (i + 1) * r ≤ data.length / r * r := Nat.mul_le_mul_right _ (List.mem_range.1 hi)
    exact this.trans (Nat.div_mul_le_self _ _))]

/-- A byte that fills the block: one more full block, and an empty tail. -/
theorem absorbBlocks_fills {r : Nat} (hr : 0 < r) (data : List Byte) (b : Byte) (h : data.length % r + 1 = r) :
    (data.length + 1) / r = data.length / r + 1 ∧
      absorbBlocks r (data ++ [b]) =
        keccakF (xorStateByte (xorBlock (absorbBlocks r data) (data.drop (data.length / r * r))) (data.length % r) b) := by
  have hd := Nat.div_add_mod data.length r
  rw [Nat.mul_comm] at hd
  have hq : (data.length + 1) / r = data.length / r + 1 := by
    rw [show data.length + 1 = (data.length / r + 1) * r by rw [Nat.add_mul, Nat.one_mul]; omega]
    exact Nat.mul_div_cancel _ hr
  refine ⟨hq, ?_⟩
  have ht : (data.drop (data.length / r * r)).length = data.length % r := by rw [List.length_drop]; omega
  rw [absorbBlocks, List.length_append, List.length_singleton, hq, List.range_succ, List.foldl_append,
    absorbBlocks_prefix r]
  simp only [List.foldl_cons, List.foldl_nil]
  rw [List.drop_append_of_le_length (by omega), List.take_of_length_le (by rw [List.length_append, ht]; simp; omega),
    xorBlock_snoc, ht]

/-- A byte that does not fill the block: the same full blocks. -/
theorem absorbBlocks_grows {r : Nat} (data : List Byte) (b : Byte) (h : data.length % r + 1 < r) :
    (data.length + 1) / r = data.length / r ∧ absorbBlocks r (data ++ [b]) = absorbBlocks r data := by
  have hr : 0 < r := by omega
  have hd := Nat.div_add_mod data.length r
  have hq : (data.length + 1) / r = data.length / r := by
    rw [show data.length + 1 = data.length % r + 1 + r * (data.length / r) by omega, Nat.add_mul_div_left _ _ hr,
      Nat.div_eq_of_lt h, Nat.zero_add]
  refine ⟨hq, ?_⟩
  rw [absorbBlocks, List.length_append, List.length_singleton, hq, absorbBlocks_prefix r]

/-- The state holds the data absorbed so far: full blocks, then the tail XORed in, and the position after it. -/
def Absorbed (r : Nat) (data : List Byte) (s : State) : Prop :=
  s.arate.toNat = r ∧ s.pos.toNat = data.length % r ∧
    s.lanes = xorBlock (absorbBlocks r data) (data.drop (data.length / r * r))

theorem Absorbed.snoc {r : Nat} {data : List Byte} {s : State} (hr : 0 < r) (h : Absorbed r data s) (b : Byte) :
    Absorbed r (data ++ [b]) (absorbByte s b) := by
  obtain ⟨ha, hp, hl⟩ := h
  have hlt : s.pos.toNat < s.arate.toNat := by rw [ha, hp]; exact Nat.mod_lt _ hr
  have hd := Nat.div_add_mod data.length r
  rw [Nat.mul_comm] at hd
  have hlen : (data ++ [b]).length = data.length + 1 := by rw [List.length_append, List.length_singleton]
  rcases absorbByte_cases s b hlt with ⟨hf, e⟩ | ⟨hf, hp', e⟩ <;> rw [e]
  · rw [hp, ha] at hf
    obtain ⟨hq, hb⟩ := absorbBlocks_fills hr data b hf
    have hmul : data.length + 1 = (data.length / r + 1) * r := by rw [Nat.add_mul, Nat.one_mul]; omega
    have hdrop : (data ++ [b]).drop ((data ++ [b]).length / r * r) = [] := by
      rw [hlen, hq, ← hmul, List.drop_eq_nil_iff, hlen]
    have hmod : (data ++ [b]).length % r = 0 := by rw [hlen, hmul, Nat.mul_mod_left]
    refine ⟨ha, hmod.symm, ?_⟩
    rw [hdrop, hb, ← hl, ← hp, xorBlock_nil]
  · rw [hp, ha] at hf
    obtain ⟨hq, hb⟩ := absorbBlocks_grows data b hf
    have hmod : (data ++ [b]).length % r = data.length % r + 1 := by
      rw [hlen, show data.length + 1 = data.length % r + 1 + r * (data.length / r) by rw [Nat.mul_comm]; omega,
        Nat.add_mul_mod_self_left, Nat.mod_eq_of_lt hf]
    have htail : (data.drop (data.length / r * r)).length = s.pos.toNat := by rw [List.length_drop, hp]; omega
    refine ⟨ha, by rw [hmod, ← hp]; exact hp', ?_⟩
    rw [hb, hlen, hq, List.drop_append_of_le_length (by omega), xorBlock_snoc, ← hl, htail]

/-- Absorbing more bytes absorbs the longer data. -/
theorem Absorbed.append {r : Nat} {data : List Byte} {s : State} (hr : 0 < r) (h : Absorbed r data s)
    (more : List Byte) : Absorbed r (data ++ more) (more.foldl absorbByte s) := by
  induction more generalizing data s with
  | nil => simpa using h
  | cons b more ih =>
    have := ih (h.snoc hr b)
    rwa [List.append_assoc] at this

end Sys2Proof.Machine
end

