-- ==== Sys2Proof/Tests/Slice0.lean ====
section
/-! SUPPORT. Tests: ill-formed commands, every constructor's decoding, the spec's own vectors (95_test_vectors.md), and for each
statement with hypotheses the values that meet them, clause by clause. Expected values are the spec's. -/

-- One kernel check at a time: each check on a thread of its own would wait for all before it.
set_option Elab.async false

namespace Sys2Proof.Tests

open Sys2Proof Sys2Proof.Machine

/-! ## States -/

/-- An idle block with every register 0 but the reset values of the configuration; V and INF are set, not drawn. -/
def idle : State :=
  { State.reset with v := Vector.replicate 16 (Vector.replicate 8 0), inf := Vector.replicate 8 false }

/-- The block with the word w in flight and its latency over. -/
def running (w : Word) (s : State) : State := { s with inflight := some w, events := [.complete] }

/-- What one step leaves, seen through f. -/
def after {α : Type} (s : State) (f : State → α) : Option α := (nextState (step s)).map f

/-- 2G, from the spec (95_test_vectors.md T-P2). -/
def twoG : Point :=
  .aff 0xC6047F9441ED7D6D3045406E95C07CD85C778E4B8CEF3CA7ABAC09B95C709EE5
    0x1AE168FEA63DC339A3C58419466CEAEEF7F632653266D0E1236431A950CFE52A

/-- 3G, from the spec (95_test_vectors.md T-P1). -/
def threeG : Point :=
  .aff 0xF9308A019258C31049344F85F89D5229B531C845836F99B08601F113BCE036F9
    0x388F7B0F632DE8140FE337E62A37F3566500A99934C2231B6CB9FD7584B8E672

/-! ## Well-formedness: each check refuses an ill-formed command (30_encoding.md R56) -/

theorem test_wellFormed_kabs_0 : (Instr.kabs 0).wellFormed = false := by decide
theorem test_wellFormed_kabs_9 : (Instr.kabs 9).wellFormed = false := by decide
theorem test_wellFormed_ksqz_0 : (Instr.ksqz 0).wellFormed = false := by decide
theorem test_wellFormed_ksqz_9 : (Instr.ksqz 9).wellFormed = false := by decide
theorem test_wellFormed_counts : (Instr.kabs 1).wellFormed = true ∧ (Instr.ksqz 8).wellFormed = true := by decide

/-! ## Decoding, every constructor (95_test_vectors.md 2.6 and the examples of the command rules) -/

theorem test_decode_kinit : decode 0x00000001 = .ok .kinit := by rfl
theorem test_decode_kabs : decode 0x00000802 = .ok (.kabs 8) := by rfl
theorem test_decode_kfin : decode 0x00000003 = .ok .kfin := by rfl
theorem test_decode_ksqz : decode 0x00000104 = .ok (.ksqz 1) := by rfl
theorem test_decode_kperm : decode 0x00000005 = .ok .kperm := by rfl
theorem test_decode_fadd : decode 0x00021310 = .ok (.fadd 3 1 2) := by rfl
theorem test_decode_fsub : decode 0x00064811 = .ok (.fsub 8 4 6) := by rfl
theorem test_decode_fmul : decode 0x00021312 = .ok (.fmul 3 1 2) := by rfl
theorem test_decode_finv : decode 0x0000AB13 = .ok (.finv 11 10) := by rfl
theorem test_decode_padd : decode 0x00010220 = .ok (.padd 2 0 1) := by rfl
theorem test_decode_pdbl : decode 0x00000121 = .ok (.pdbl 1 0) := by rfl
theorem test_decode_pmulg : decode 0x0000F322 = .ok (.pmulg 3 15) := by rfl

/-- T-E13 to T-E28. -/
theorem test_decode_illegal :
    decode 0x00000000 = .error .unlistedOp ∧ decode 0x00000006 = .error .unlistedOp ∧
      decode 0x000000FF = .error .unlistedOp ∧ decode 0x00000002 = .error .badCount ∧
      decode 0x00000902 = .error .badCount ∧ decode 0x00001002 = .error .mustBeZero ∧
      decode 0x00000105 = .error .mustBeZero ∧ decode 0x00121310 = .error .rsvNonzero ∧
      decode 0x80000001 = .error .rsvNonzero ∧ decode 0x00011213 = .error .mustBeZero ∧
      decode 0x00000820 = .error .mustBeZero ∧ decode 0x00010021 = .error .mustBeZero ∧
      decode 0x00000822 = .error .mustBeZero ∧ decode 0x00010022 = .error .mustBeZero ∧
      decode 0x00000014 = .error .unlistedOp ∧ decode 0x00000023 = .error .unlistedOp := by
  refine ⟨?_, ?_, ?_, ?_, ?_, ?_, ?_, ?_, ?_, ?_, ?_, ?_, ?_, ?_, ?_, ?_⟩ <;> rfl

/-- The table's bit numbering gives the same words. -/
theorem test_decodeTableWord :
    decodeTableWord 32 0x00077720 = some (.padd 7 7 7) ∧ decodeTableWord 32 0x00000902 = none := by decide

/-! ## The permutation (95_test_vectors.md 2.1) -/

/-- T-K3: one round of the all-zero state. -/
theorem test_round_zero : keccakRound (Vector.replicate 25 0) 0 = (Vector.replicate 25 0).set 0 1 := by decide +kernel

/-- T-K1. -/
theorem test_kperm_zero :
    after (running 0x00000005 idle) (fun t => (t.lanes[0], t.lanes[1], t.lanes[10], t.lanes[24], t.code)) =
      some (0xF1258F7940E1DDE7, 0x84D5CCF933C0478A, 0xEB5AA93F2317D635, 0xEAF1FF7B5CECA249, .ok) := by decide +kernel

/-- T-K5: tells apart the lane index maps. -/
theorem test_kperm_index :
    after (running 0x00000005 { idle with lanes := Vector.ofFn fun i => BitVec.ofNat 64 i.val })
        (fun t => (t.lanes[0], t.lanes[5], t.lanes[13], t.lanes[24])) =
      some (0x8374B05252ED8115, 0xA1D7144F7C8DD493, 0x2E2AF6948C901F11, 0xD153F43A297E4A33) := by decide +kernel

/-! ## The sponge (95_test_vectors.md 2.2) -/

/-- T-S27: the largest legal rate. -/
theorem test_kinit_199 :
    after (running 0x00000001 { idle with spRate := 199, lanes := Vector.replicate 25 7 })
        (fun t => (spstatWord t, statusWord t, t.lanes[24])) =
      some (0x01C70000, 0x00000000, 0) := by decide

/-- T-S25: rate 200 is refused, and nothing changes but the report. -/
theorem test_kinit_200 :
    after (running 0x00000001 { idle with spRate := 200 }) (fun t => (spstatWord t, statusWord t, t.errcmd)) =
      some (0x01880000, 0x00000704, 0x00000001) := by decide

/-- T-S13. -/
theorem test_kabs_abc :
    after (running 0x00000302 { idle with din := 0x0000000000636261 })
        (fun t => (t.lanes[0], spstatWord t, t.code)) =
      some (0x0000000000636261, 0x01880003, .ok) := by decide +kernel

/-- T-S24: two blocks fill inside one KABS. -/
theorem test_kabs_two_blocks :
    after (running 0x00000802 { idle with arate := 4, din := 0x0706050403020100 })
        (fun t => (t.lanes[0], t.lanes[1], spstatWord t)) =
      some (0xCB0D5EF85CC8AD2F, 0xA23C7800D4D9A0EC, 0x01040000) := by decide +kernel

/-- S1: the empty message. -/
theorem test_kfin_empty :
    after (running 0x00000003 idle) (fun t => (t.lanes[0], t.lanes[3], spstatWord t)) =
      some (0x3C23F7860146D2C5, 0x70A4855D04D8FA7B, 0x01880100) := by decide +kernel

/-- T-S18: KFIN in the squeeze phase. -/
theorem test_kfin_phase :
    after (running 0x00000003 { idle with phase := .squeeze }) (fun t => (statusWord t, t.errcmd, t.phase)) =
      some (0x00000604, 0x00000003, .squeeze) := by decide +kernel

/-- T-S16: bytes 3 to 7 of DOUT are written 0. -/
theorem test_ksqz_3 :
    after (running 0x00000304
        { idle with phase := .squeeze, lanes := (Vector.replicate 25 0).set 0 0x3C23F7860146D2C5, dout := 0xFFFFFFFFFFFFFFFF })
        (fun t => (t.dout, spstatWord t)) =
      some (0x000000000046D2C5, 0x01880103) := by decide +kernel

/-- The permutation runs before the byte when POS = ARATE (R83; the lane is T-K1's). -/
theorem test_ksqz_refill :
    after (running 0x00000204 { idle with phase := .squeeze, pos := 136 }) (fun t => (t.dout, t.lanes[0], t.pos)) =
      some (0x000000000000DDE7, 0xF1258F7940E1DDE7, 2) := by decide +kernel

/-! ## Field commands (95_test_vectors.md 2.3) -/

/-- T-F24: the destination is both operands. -/
theorem test_fadd_aliased :
    after (running 0x00011110 (idle.setV 1 Gx)) (fun t => t.getV 1) =
      some 0xF37CCCFDF3B97758AB40C52B9D0E160E0537F9B65B9C51B2B3E502B62DF02F30 := by decide +kernel

/-- T-F1: the sum wraps to 0. -/
theorem test_fadd_wraps :
    after (running 0x00021310 ((idle.setV 1 (P_FIELD - 1)).setV 2 1)) (fun t => (t.getV 3, t.code)) =
      some (0, .ok) := by decide +kernel

/-- T-F4: below 0. -/
theorem test_fsub_wraps :
    after (running 0x00021311 (idle.setV 2 1)) (fun t => t.getV 3) =
      some 0xFFFFFFFFFFFFFFFFFFFFFFFFFFFFFFFFFFFFFFFFFFFFFFFFFFFFFFFEFFFFFC2E := by decide +kernel

/-- T-F6: tells the operands apart. -/
theorem test_fsub_order :
    after (running 0x00021311 ((idle.setV 1 Gx).setV 2 Gy)) (fun t => t.getV 3) =
      some 0x31838C07D338F746F7FB6699C076025E058448928748D4BFBDAAB0CB1BE742E0 := by decide +kernel

/-- T-F11. -/
theorem test_fmul :
    after (running 0x00021312 ((idle.setV 1 Gx).setV 2 Gy)) (fun t => t.getV 3) =
      some 0xFD3DC529C6EB60FB9D166034CF3C1A5A72324AA9DFD3428A56D7E1CE0179FD9B := by decide +kernel

/-- T-F23: operand B out of range, V[D] as it was. -/
theorem test_fmul_range :
    after (running 0x00021312 ((idle.setV 1 (P_FIELD - 1)).setV 2 P_FIELD)) (fun t => (t.getV 3, statusWord t, t.errcmd)) =
      some (0, 0x00000204, 0x00021312) := by decide +kernel

/-- T-F18. -/
theorem test_finv :
    after (running 0x00001213 (idle.setV 1 Gx)) (fun t => t.getV 2) =
      some 0x237AFDF1D2938D86870AAEB8AD77626A67B8E794ABFB076BE61D003687CA9EF6 := by decide +kernel

/-- T-F19: the inverse of 0. -/
theorem test_finv_zero :
    after (running 0x00001213 (idle.setV 2 5)) (fun t => (t.getV 2, statusWord t)) = some (5, 0x00000304) := by
  decide +kernel

/-! ## Point commands (95_test_vectors.md 2.4) -/

/-- T-P18: D = A. -/
theorem test_padd_aliased :
    after (running 0x00010020 ((idle.setP 0 basePoint).setP 1 twoG)) (fun t => t.getP 0) = some threeG := by
  decide +kernel

/-- T-P14: a zero denominator off the curve. -/
theorem test_padd_zero_denominator :
    after (running 0x00010220 ((idle.setP 0 (.aff 1 2)).setP 1 (.aff 1 3))) (fun t => (t.getP 2, t.code)) =
      some (.aff 0 0, .invZero) := by decide +kernel

/-- T-P2. -/
theorem test_pdbl : after (running 0x00000121 (idle.setP 0 basePoint)) (fun t => t.getP 1) = some twoG := by
  decide +kernel

/-- T-P15: y = 0 is tested before doubling; Inf is written with zero coordinates. -/
theorem test_pdbl_opposite :
    after (running 0x00000121 ((idle.setV 2 9).setV 3 9)) (fun t => (t.getP 1, t.getV 2, t.getV 3, t.code)) =
      some (.inf, 0, 0, .ok) := by decide +kernel

/-! ## Scalar multiplication (95_test_vectors.md 2.5) -/

/-- T-M17: the scalar's register is overwritten. -/
theorem test_pmulg_aliased :
    after (running 0x00002122 (idle.setV 2 3)) (fun t => (t.getP 1, t.code)) = some (threeG, .ok) := by decide +kernel

/-- T-M14: k = n. -/
theorem test_pmulg_order :
    after (running 0x0000F322 (idle.setV 15 N_ORDER)) (fun t => (statusWord t, t.errcmd, t.getP 3)) =
      some (0x00000404, 0x0000F322, .aff 0 0) := by decide +kernel

/-! ## The host port (95_test_vectors.md 2.7) -/

/-- T-H4. -/
theorem test_write_inf :
    after { idle with events := [.hostWrite 0x400 0xFFFFFF05] } (fun t => (infWord t, t.inf[0], t.inf[1], t.inf[2])) =
      some (0x00000005, true, false, true) := by decide

/-- T-H5: the high word is at the higher address. -/
theorem test_write_lane_high :
    after { idle with events := [.hostWrite 0x104 0x11223344] } (fun t => (t.lanes[0], idleRead t 0x104)) =
      some (0x1122334400000000, 0x11223344) := by decide

/-- T-S28: reserved bits of SPCFG. -/
theorem test_write_spcfg :
    after { idle with events := [.hostWrite 0x010 0xFFFF0188] } (fun t => idleRead t 0x010) = some 0x00000188 := by
  decide

/-- T-H3: STATUS is read-only, and OVR is not set. -/
theorem test_write_status :
    after { idle with events := [.hostWrite 0x004 0xFFFFFFFF] } statusWord = some 0x00000000 := by decide

/-- T-H6: a V write while busy is dropped and sets OVR. -/
theorem test_busy_write :
    after { idle with inflight := some 0x00021312, events := [.hostWrite 0x200 5] } (fun t => (t.getV 0, statusWord t)) =
      some (0, 0x00000009) := by decide

/-- T-H8: SRST aborts the command. -/
theorem test_srst_aborts :
    after { idle with inflight := some 0x00000005, pos := 9, events := [.hostWrite 0x008 2] }
        (fun t => (t.inflight, statusWord t, spstatWord t)) =
      some (none, 0, 0x01880000) := by decide

/-- T-H1: a reserved address reads 0. -/
theorem test_read_reserved :
    after { idle with events := [.hostRead 0x028] } (fun t => t.readLog) = some [(0x028, 0)] := by decide

/-- A misaligned access is refused (20_memory.md R44). -/
theorem test_misaligned : step { idle with events := [.hostRead 0x006] } = .refused .misalignedAccess := by rfl

/-- T-E29: decoding comes before the operand check. -/
theorem test_illegal_first :
    after (running 0x00010021 (idle.setP 0 (.aff P_FIELD P_FIELD))) (fun t => (statusWord t, t.errcmd)) =
      some (0x00000104, 0x00010021) := by decide

/-- T-M18: with FATAL set, a command ends with HALTED. -/
theorem test_halted :
    after (running 0x00000001 { idle with fatal := true }) statusWord = some 0x00000806 := by decide

/-- The host's first word runs as the first step after reset. -/
theorem test_withFetchWord :
    (nextState (step (State.reset.withFetchWord 32 0x00000001))).map (fun t => (t.code, t.inflight)) =
      some (.ok, none) := by decide

/-! ## Witnesses: values that meet the hypotheses of each statement, for each of its clauses, at the ends of its ranges -/

theorem witness_DecodeOfEncodeIsTheCommand :
    (Instr.kabs 1).wellFormed = true ∧ (Instr.ksqz 8).wellFormed = true ∧ (Instr.pmulg 7 15).wellFormed = true := by decide

theorem witness_DecodedWordIsTheEncoding : decode 0x00000802 = .ok (.kabs 8) ∧ decode 0x000FFF11 = .ok (.fsub 15 15 15) :=
  ⟨rfl, rfl⟩

theorem witness_DecodeFollowsMatchAndMask :
    (∃ r ∈ opcodeRows, r.selects 0x00000802 = true) ∧ (∀ r ∈ opcodeRows, r.selects 0x00000902 = false) ∧
      ∃ r ∈ opcodeRows, r.selects 0x00077720 = true ∧ r.mnemonic = "PADD" := by decide

theorem witness_IllegalWordOnlyReports :
    illegalWord 0x00000902 = true ∧ (∃ e, decode 0x00000902 = .error e) ∧ illegalWord 0x00000802 = false ∧
      (running 0x00000902 idle).inflight = some 0x00000902 ∧ (running 0x00000902 idle).fatal = false ∧
      (running 0x00000902 idle).events = .complete :: [] :=
  ⟨by decide, ⟨_, rfl⟩, by decide, rfl, rfl, rfl⟩

theorem witness_StepRunsTheDecodedCommand :
    (running 0x00000005 idle).inflight = some 0x00000005 ∧ (running 0x00000005 idle).fatal = false ∧
      decode 0x00000005 = .ok .kperm ∧ (running 0x00000005 idle).events = .complete :: [] ∧
      ({ running 0x00000005 idle with events := [] } : State).events = [] :=
  ⟨rfl, rfl, rfl, rfl, rfl⟩

theorem witness_StepTakesTheFirstEvent :
    ({ idle with events := [.hostRead 0x004] } : State).events = .hostRead 0x004 :: [] ∧
      ({ idle with events := [.hostWrite 0x000 5] } : State).events = .hostWrite 0x000 5 :: [] ∧
      ({ idle with events := [.resetInput] } : State).events = .resetInput :: [] ∧
      ({ idle with events := [.complete] } : State).events = .complete :: [] ∧
      ({ idle with events := [.complete] } : State).inflight = none ∧ idle.events = [] ∧ idle.inflight = none :=
  ⟨rfl, rfl, rfl, rfl, rfl, rfl, rfl⟩

theorem witness_IdleCmdWriteIssues : idle.inflight = none := rfl

/-- A command that succeeds, one that ends with an error; FATAL as before and, off the spec's constants, set. -/
theorem witness_CompletionRecordsTheCode :
    (running 0x00000001 idle).inflight = some 0x00000001 ∧ (running 0x00000001 idle).events = .complete :: [] ∧
      after (running 0x00000001 idle) (fun t => t.code) = some .ok ∧
      after (running 0x00001213 idle) (fun t => t.code) = some .invZero ∧
      after (running 0x00000000 idle) (fun t => t.code) = some .illegal := by decide +kernel

theorem witness_ErrorWritesOnlyTheReport :
    after (running 0x00001213 idle) (fun t => decide (t.code ≠ .ok)) = some true ∧
      ∃ t, exec (.finv 2 1) (running 0x00001213 idle) = .next t ∧ t.code ≠ .ok :=
  ⟨by decide +kernel, _, rfl, by decide⟩

theorem witness_CommandRaisesItsOwnCodes :
    ∃ t, exec (.finv 2 1) (running 0x00001213 idle) = .next t ∧ t.code = .invZero := ⟨_, rfl, by decide⟩

theorem witness_FatalHaltsEveryCommand :
    (running 0x00000001 { idle with fatal := true }).inflight = some 0x00000001 ∧
      (running 0x00000001 { idle with fatal := true }).fatal = true ∧
      (running 0x00000001 { idle with fatal := true }).events = .complete :: [] := ⟨rfl, rfl, rfl⟩

theorem witness_FatalClearedOnlyByReset :
    (∃ t, step { idle with fatal := true, events := [.resetInput] } = .next t ∧ t.fatal = false) ∧
      ∃ t, step { idle with fatal := true, events := [.hostWrite 0x008 2] } = .next t ∧ t.fatal = false :=
  ⟨⟨_, rfl, rfl⟩, ⟨_, rfl, rfl⟩⟩

theorem witness_CommandsDependOnTheRegistersAlone :
    idle.SameBlock { idle with events := [.resetInput], readLog := [(0, 1)], draws := 9 } ∧
      ∃ t, exec .kinit idle = .next t := ⟨rfl, _, rfl⟩

theorem witness_CommandInFlightEnds :
    (running 0x00000005 idle).busy = true ∧ (running 0x00000005 idle).events.all Event.isAligned = true ∧
      [Event.hostRead 0xFFC, .hostWrite 0x000 5, .resetInput].all Event.isAligned = true := by decide

theorem witness_AlignedAccessesNeverStop :
    ({ idle with events := [.hostRead 0xFFC, .hostWrite 0x000 5] } : State).events.all Event.isAligned = true := by decide

theorem witness_BothResetsReset : (0x00000002 : Word).getLsbD 1 = true ∧ (0xFFFFFFFF : Word).getLsbD 1 = true := by decide

theorem witness_ResetSpongeIsKinits : spcfgWord idle = 0x00000188 := by decide

theorem witness_StepKeepsBookkeepingLegal :
    idle.SpongeLegal ∧ ({ idle with phase := .squeeze, pos := 199, arate := 199 } : State).SpongeLegal ∧
      ({ idle with pos := 0, arate := 1 } : State).SpongeLegal ∧ ∃ t, step idle = .next t :=
  ⟨by decide, by decide, by decide, _, rfl⟩

theorem witness_KinitStartsASponge :
    (∃ s : State, 1 ≤ s.spRate.toNat ∧ s.spRate.toNat ≤ 199 ∧ s.spRate = 1) ∧
      (∃ s : State, 1 ≤ s.spRate.toNat ∧ s.spRate.toNat ≤ 199 ∧ s.spRate = 199) ∧
      (∃ s : State, s.inflight = some 0x00000001 ∧ s.spRate.toNat = 0) ∧
      ∃ s : State, s.inflight = some 0x00000001 ∧ 199 < s.spRate.toNat ∧ s.spRate = 200 :=
  ⟨⟨{ idle with spRate := 1 }, by decide⟩, ⟨{ idle with spRate := 199 }, by decide⟩,
    ⟨running 0x00000001 { idle with spRate := 0 }, by decide⟩, ⟨running 0x00000001 { idle with spRate := 200 }, by decide⟩⟩

theorem witness_KabsAbsorbsBytesInOrder :
    1 ≤ 1 ∧ 1 ≤ 8 ∧ 8 ≤ 8 ∧ idle.SpongeLegal ∧ idle.phase = .absorb ∧ ({ idle with pos := 135 } : State).SpongeLegal ∧
      (running 0x00000102 { idle with phase := .squeeze }).inflight = some 0x00000102 ∧
      (running 0x00000102 { idle with phase := .squeeze }).phase = .squeeze := by decide

theorem witness_KfinPadsAndPermutes :
    idle.phase = .absorb ∧ (running 0x00000003 { idle with phase := .squeeze }).inflight = some 0x00000003 ∧
      (running 0x00000003 { idle with phase := .squeeze }).phase = .squeeze := by decide

theorem witness_PaddingXorsTwoBytes :
    idle.SpongeLegal ∧ idle.phase = .absorb ∧ ({ idle with pos := 135 } : State).SpongeLegal ∧
      ({ idle with arate := 1 } : State).SpongeLegal ∧ ({ idle with arate := 199, pos := 198 } : State).SpongeLegal := by
  decide

theorem witness_KsqzSqueezesBytesInOrder :
    ({ idle with phase := .squeeze } : State).SpongeLegal ∧
      ({ idle with phase := .squeeze, pos := 136 } : State).SpongeLegal ∧
      ({ idle with phase := .squeeze, pos := 136 } : State).phase = .squeeze ∧
      (running 0x00000804 idle).inflight = some 0x00000804 ∧ (running 0x00000804 idle).phase = .absorb := by decide

theorem witness_CommandsComputeTheSourceSponge :
    (∀ c ∈ [[(1 : Byte)], [1, 2, 3, 4, 5, 6, 7, 8]], 1 ≤ c.length ∧ c.length ≤ 8) ∧ (∀ n ∈ [1, 8], 1 ≤ n ∧ n ≤ 8) ∧
      1 ≤ (1 : Byte).toNat ∧ (1 : Byte).toNat ≤ 199 ∧ 1 ≤ (199 : Byte).toNat ∧ (199 : Byte).toNat ≤ 199 := by decide

/-- Operands p - 1 and 0 are legal; p and 2^256 - 1 are not: FADD, FSUB and FMUL. -/
theorem witness_FieldBinary :
    (idle.setV 1 (P_FIELD - 1)).getV 1 < P_FIELD ∧ (idle.setV 1 (P_FIELD - 1)).getV 2 < P_FIELD ∧
      (running 0x00021310 (idle.setV 1 P_FIELD)).inflight = some 0x00021310 ∧
      P_FIELD ≤ (running 0x00021310 (idle.setV 1 P_FIELD)).getV 1 ∧
      P_FIELD ≤ (running 0x00021310 (idle.setV 2 (2 ^ 256 - 1))).getV 2 := by decide +kernel

theorem witness_FaddAddsModP : (idle.setV 1 (P_FIELD - 1)).getV 1 < P_FIELD ∧ P_FIELD ≤ (idle.setV 2 P_FIELD).getV 2 :=
  by decide +kernel

theorem witness_FsubSubtractsModP : (idle.setV 2 (P_FIELD - 1)).getV 2 < P_FIELD ∧ P_FIELD ≤ (idle.setV 1 P_FIELD).getV 1 :=
  by decide +kernel

theorem witness_FmulMultipliesModP : (idle.setV 1 (P_FIELD - 1)).getV 1 < P_FIELD ∧ P_FIELD ≤ (idle.setV 2 P_FIELD).getV 2 :=
  by decide +kernel

theorem witness_FinvIsTheFermatPower :
    0 < (idle.setV 1 1).getV 1 ∧ (idle.setV 1 (P_FIELD - 1)).getV 1 < P_FIELD ∧
      P_FIELD ≤ (running 0x00001213 (idle.setV 1 P_FIELD)).getV 1 ∧ (running 0x00001213 idle).getV 1 = 0 ∧
      (running 0x00001213 idle).inflight = some 0x00001213 := by decide +kernel

theorem witness_FinvGivesTheUniqueInverse :
    0 < (idle.setV 1 (P_FIELD - 1)).getV 1 ∧ (idle.setV 1 (P_FIELD - 1)).getV 1 < P_FIELD ∧ 0 < P_FIELD := by
  decide +kernel

theorem witness_FieldResultsAreElements :
    (∃ t, exec (.finv 2 1) (idle.setV 1 1) = .next t ∧ t.code = .ok) ∧
      (∃ t, exec (.fadd 3 1 2) idle = .next t ∧ t.code = .ok) ∧
      (∃ t, exec (.fsub 3 1 2) idle = .next t ∧ t.code = .ok) ∧
      ∃ t, exec (.fmul 3 1 2) idle = .next t ∧ t.code = .ok :=
  ⟨⟨_, rfl, by decide +kernel⟩, ⟨_, rfl, by decide +kernel⟩, ⟨_, rfl, by decide +kernel⟩, ⟨_, rfl, by decide +kernel⟩⟩

theorem witness_PointRegisterReadsAndWrites :
    (idle.setInf 7 true).inf[(7 : PReg)] = true ∧ idle.inf[(7 : PReg)] = false ∧ 0 < 2 ^ 256 ∧
      2 ^ 256 - 1 < 2 ^ 256 := by decide

/-- Opposite points, equal x off the curve, a doubling, and distinct x. -/
theorem witness_EcaddIsTheGroupLaw :
    (Gx < P_FIELD ∧ Gy < P_FIELD ∧ P_FIELD - Gy < P_FIELD ∧ (Gy + (P_FIELD - Gy)) % P_FIELD = 0) ∧
      ((2 + 3) % P_FIELD ≠ 0 ∧ 2 ≠ 3) ∧ (Gy + Gy) % P_FIELD ≠ 0 ∧ 1 ≠ 3 := by decide

theorem witness_EcaddStaysOnTheCurve : basePoint.OnCurve ∧ Point.inf.OnCurve :=
  ⟨⟨by decide, by decide, by decide +kernel⟩, trivial⟩

theorem witness_PaddAddsPoints :
    (((idle.setP 0 basePoint).setP 1 twoG).getP 0).inRange = true ∧
      (((idle.setP 0 basePoint).setP 1 twoG).getP 1).inRange = true ∧
      (∃ r, ecadd (idle.getP 0) (idle.getP 0) = .ok r ∧ r = .inf) ∧
      ((running 0x00010220 (idle.setP 0 (.aff P_FIELD Gy))).getP 0).inRange = false ∧
      ((running 0x00010220 (idle.setP 1 (.aff Gx (2 ^ 256 - 1)))).getP 1).inRange = false ∧
      ecadd (.aff 1 2) (.aff 1 3) = .error .invZero ∧ (Point.aff 1 2).inRange = true ∧ (Point.aff 1 3).inRange = true :=
  ⟨by decide +kernel, by decide +kernel, ⟨_, rfl, by decide +kernel⟩, by decide +kernel, by decide +kernel, rfl,
    by decide, by decide⟩

theorem witness_PdblDoublesPoints :
    ((idle.setP 0 basePoint).getP 0).inRange = true ∧
      ((running 0x00000121 (idle.setP 0 (.aff P_FIELD Gy))).getP 0).inRange = false ∧
      (running 0x00000121 idle).inflight = some 0x00000121 := by decide +kernel

theorem witness_PointRangeCheck :
    (idle.setV 0 P_FIELD).inf[(0 : PReg)] = false ∧ P_FIELD ≤ (idle.setV 0 P_FIELD).getV ⟨2 * 0, by omega⟩ ∧
      P_FIELD ≤ (idle.setV 15 P_FIELD).getV ⟨2 * 7 + 1, by omega⟩ := by decide +kernel

theorem witness_PmulgFollowsItsPseudocode :
    (running 0x0000F322 idle).inflight = some 0x0000F322 ∧ (running 0x0000F322 idle).getV 15 = 0 ∧
      N_ORDER ≤ (running 0x0000F322 (idle.setV 15 N_ORDER)).getV 15 ∧
      1 ≤ (idle.setV 15 1).getV 15 ∧ (idle.setV 15 1).getV 15 < N_ORDER ∧
      1 ≤ (idle.setV 15 (N_ORDER - 1)).getV 15 ∧ (idle.setV 15 (N_ORDER - 1)).getV 15 < N_ORDER ∧
      Gx < 2 ^ 256 ∧ Gy < 2 ^ 256 := by decide +kernel

theorem witness_PmulgGivesTheMultipleOfG :
    1 ≤ 1 ∧ 1 < N_ORDER ∧ 1 ≤ N_ORDER - 1 ∧ N_ORDER - 1 < N_ORDER ∧ (idle.setV 15 1).getV 15 = 1 ∧
      (idle.setV 15 (N_ORDER - 1)).getV 15 = N_ORDER - 1 := by decide +kernel

theorem witness_FatalIsNeverSet :
    (running 0x00001213 idle).fatal = false ∧ ∃ t, step idle = .next t := ⟨by decide, idle, by rfl⟩

theorem witness_MisalignedAccessIsRefused :
    bits (0x001 : Addr) 1 0 ≠ 0 ∧ bits (0x402 : Addr) 1 0 ≠ 0 ∧ bits (0xFFF : Addr) 1 0 ≠ 0 := by decide +kernel

theorem witness_ReadsHaveNoSideEffect :
    bits (0x000 : Addr) 1 0 = 0 ∧ bits (0xFFC : Addr) 1 0 = 0 ∧ idle.inflight = none := by decide +kernel

theorem witness_ReservedReadsZeroIgnoresWrites :
    ([(0x028 : Addr), 0x0FC, 0x1C8, 0x1FC, 0x404, 0xFFC].all fun a => decide (bits a 1 0 = 0 ∧
      ((0x028 ≤ a.toNat ∧ a.toNat ≤ 0x0FC) ∨ (0x1C8 ≤ a.toNat ∧ a.toNat ≤ 0x1FC) ∨ 0x404 ≤ a.toNat))) = true := by
  decide +kernel

theorem witness_ReadOnlyIgnoresWrites :
    [(0x004 : Addr), 0x00C, 0x014, 0x020, 0x024].contains 0x024 = true ∧ [(0x000 : Addr), 0x008].contains 0x008 = true := by
  decide +kernel

theorem witness_HostWriteStoresOneWord :
    idle.inflight = none ∧
      ([(0x004 : Addr), 0x010, 0x018, 0x01C, 0x100, 0x1C4, 0x200, 0x3FC, 0x400, 0xFFC].all fun a =>
        decide (bits a 1 0 = 0 ∧ a ≠ 0x000 ∧ a ≠ 0x008 ∧ bits (0x024 : Addr) 1 0 = 0 ∧ (0x024 : Addr) ≠ a)) = true := by
  decide +kernel

theorem witness_CtrlClearsOrResets :
    (0x00000002 : Word).getLsbD 1 = true ∧ (0x00000003 : Word).getLsbD 1 = true ∧
      ((0x00000001 : Word).getLsbD 1 = false ∧ (0x00000001 : Word).getLsbD 0 = true) ∧
      ((0xFFFFFFFC : Word).getLsbD 1 = false ∧ (0xFFFFFFFC : Word).getLsbD 0 = false) := by decide

theorem witness_BusyWritesAreDropped :
    (running 0x00000005 idle).busy = true ∧
      ([(0x000 : Addr), 0x010, 0x018, 0x01C, 0x100, 0x1C4, 0x200, 0x3FC, 0x400].all fun a => decide (bits a 1 0 = 0 ∧
        (a = 0x000 ∨ a = 0x010 ∨ a = 0x018 ∨ a = 0x01C ∨ (0x100 ≤ a.toNat ∧ a.toNat ≤ 0x1C4) ∨
          (0x200 ≤ a.toNat ∧ a.toNat ≤ 0x400)))) = true ∧
      bits (0x008 : Addr) 1 0 = 0 ∧
      ([(0x004 : Addr), 0x00C, 0x014, 0x020, 0x0FC, 0x1C8, 0x1FC, 0x404, 0xFFC].all fun a => decide (bits a 1 0 = 0 ∧
        (a = 0x004 ∨ a = 0x00C ∨ a = 0x014 ∨ (0x020 ≤ a.toNat ∧ a.toNat ≤ 0x0FC) ∨
          (0x1C8 ≤ a.toNat ∧ a.toNat ≤ 0x1FC) ∨ 0x404 ≤ a.toNat))) = true := by decide +kernel

theorem witness_BusyReads :
    (running 0x00000005 idle).busy = true ∧
      ([(0x000 : Addr), 0x008, 0x028, 0x0FC, 0x1C8, 0x1FC, 0x404, 0xFFC].all fun a => decide (bits a 1 0 = 0 ∧
        (a = 0x000 ∨ a = 0x008 ∨ (0x028 ≤ a.toNat ∧ a.toNat ≤ 0x0FC) ∨ (0x1C8 ≤ a.toNat ∧ a.toNat ≤ 0x1FC) ∨
          0x404 ≤ a.toNat))) = true ∧
      ([(0x004 : Addr), 0x010, 0x018, 0x01C].all fun a => decide (bits a 1 0 = 0)) = true ∧
      ([(0x00C : Addr), 0x014, 0x020, 0x024, 0x100, 0x1C4, 0x200, 0x3FC, 0x400].all fun a => decide (bits a 1 0 = 0 ∧
        (a = 0x00C ∨ a = 0x014 ∨ a = 0x020 ∨ a = 0x024 ∨ (0x100 ≤ a.toNat ∧ a.toNat ≤ 0x1C4) ∨
          (0x200 ≤ a.toNat ∧ a.toNat ≤ 0x400)))) = true := by decide +kernel

end Sys2Proof.Tests
end

section
/-! SUPPORT. The sponge bookkeeping stays legal (10_state.md R16): once per shared operation, per command, per agent, and
so for every step. -/

namespace Sys2Proof.Machine

/-! ## Legal bookkeeping -/

/-- A position below an unchanged rate is legal in either phase. -/
theorem State.SpongeLegal.of_pos_lt {s t : State} (h : s.SpongeLegal) (ha : t.arate = s.arate)
    (hp : t.pos.toNat < s.arate.toNat) : t.SpongeLegal := by
  obtain ⟨hlo, hhi, -, -⟩ := h
  rw [← ha] at hlo hhi hp
  exact ⟨hlo, hhi, hp.le, fun _ => hp⟩

theorem State.SpongeLegal.of_pos_zero {s t : State} (h : s.SpongeLegal) (ha : t.arate = s.arate) (hp : t.pos = 0) :
    t.SpongeLegal := by
  have ⟨hlo, _, _, _⟩ := h
  exact h.of_pos_lt ha (by rw [hp]; exact hlo)

/-- In the SQUEEZE phase a position up to an unchanged rate is legal. -/
theorem State.SpongeLegal.of_squeeze {s t : State} (h : s.SpongeLegal) (ha : t.arate = s.arate)
    (hp : t.pos.toNat ≤ s.arate.toNat) (hsq : t.phase = .squeeze) : t.SpongeLegal := by
  obtain ⟨hlo, hhi, -, -⟩ := h
  rw [← ha] at hlo hhi hp
  exact ⟨hlo, hhi, hp, fun hab => by simp [hsq] at hab⟩

/-- The bookkeeping is legal when it is that of a legal state, whatever the other fields. -/
theorem State.SpongeLegal.of_same {s t : State} (h : s.SpongeLegal) (ha : t.arate = s.arate) (hp : t.pos = s.pos)
    (hph : t.phase = s.phase) : t.SpongeLegal := by
  simpa only [State.SpongeLegal, ha, hp, hph] using h

theorem reset_spongeLegal : State.reset.SpongeLegal := by
  refine ⟨?_, ?_, ?_, fun _ => ?_⟩ <;> decide

theorem blockReset_spongeLegal (s : State) : s.blockReset.SpongeLegal :=
  reset_spongeLegal.of_same s.blockReset_arate s.blockReset_pos s.blockReset_phase

theorem State.SpongeLegal.complete {s : State} (h : s.SpongeLegal) (c : ResultCode) : (s.complete c).SpongeLegal :=
  h.of_same (s.complete_arate c) (s.complete_pos c) (s.complete_phase c)

/-! ## The sponge commands (41_sponge.md R78 to R83) -/

theorem runKinit_spongeLegal {s t : State} (h : runKinit s = .ok t) : t.SpongeLegal := by
  unfold runKinit at h
  split at h
  next hr =>
    obtain ⟨hlo, hhi⟩ : 1 ≤ s.spRate.toNat ∧ s.spRate.toNat ≤ 199 := by simpa [rateLegal] using hr
    cases h
    exact ⟨hlo, hhi, Nat.zero_le _, fun _ => hlo⟩
  next => cases h

theorem runKabs_spongeLegal {n : Nat} {s t : State} (hs : s.SpongeLegal) (h : runKabs n s = .ok t) :
    t.SpongeLegal := by
  unfold runKabs at h
  split at h
  next hab =>
    have ⟨_, _, _, hlt⟩ := hs
    cases h
    exact hs.of_pos_lt (absorb_arate _ s) (absorb_pos_lt _ s (hlt hab))
  next => cases h

theorem runKfin_spongeLegal {s t : State} (hs : s.SpongeLegal) (h : runKfin s = .ok t) : t.SpongeLegal := by
  unfold runKfin at h
  split at h
  next =>
    rw [← Except.ok.inj h]
    exact hs.of_pos_zero rfl rfl
  next => cases h

theorem runKsqz_spongeLegal {n : Nat} {s t : State} (hs : s.SpongeLegal) (h : runKsqz n s = .ok t) :
    t.SpongeLegal := by
  unfold runKsqz at h
  split at h
  next hsq =>
    have ⟨hlo, _, hle, _⟩ := hs
    have hph : (squeezeBytes n s).2.phase = .squeeze := by rw [squeezeBytes_frame]; exact hsq
    cases h
    exact hs.of_squeeze (squeezeBytes_arate n s) (squeezeBytes_pos_le n s hlo hle) hph
  next => cases h

theorem runKperm_spongeLegal {s t : State} (hs : s.SpongeLegal) (h : runKperm s = .ok t) : t.SpongeLegal := by
  rw [← Except.ok.inj h]
  exact hs.of_same rfl rfl rfl

/-! ## The field and point commands: a success is one register write -/

theorem fieldBinary_ok {f : Nat → Nat → Nat} {d a b : VReg} {s t : State} (h : fieldBinary f d a b s = .ok t) :
    ∃ x, t = s.setV d x := by
  rcases fieldBinary_cases f d a b s with ⟨-, -, e⟩ | ⟨-, e⟩ <;> cases e.symm.trans h
  exact ⟨_, rfl⟩

theorem runFinv_ok {d a : VReg} {s t : State} (h : runFinv d a s = .ok t) : ∃ x, t = s.setV d x := by
  rcases runFinv_cases d a s with ⟨-, -, e⟩ | ⟨-, e⟩ | ⟨-, e⟩ <;> cases e.symm.trans h
  exact ⟨_, rfl⟩

theorem runPadd_ok {d a b : PReg} {s t : State} (h : runPadd d a b s = .ok t) : ∃ q, t = s.setP d q := by
  rcases runPadd_cases d a b s with ⟨-, -, e⟩ | ⟨-, e⟩
  · rcases writeSum_cases d (s.getP a) (s.getP b) s with ⟨r, -, e'⟩ | ⟨-, e'⟩ <;> cases (e.trans e').symm.trans h
    exact ⟨r, rfl⟩
  · cases e.symm.trans h

theorem runPdbl_ok {d a : PReg} {s t : State} (h : runPdbl d a s = .ok t) : ∃ q, t = s.setP d q := by
  rcases runPdbl_cases d a s with ⟨-, r, -, e⟩ | ⟨-, e⟩ <;> cases e.symm.trans h
  exact ⟨r, rfl⟩

theorem runPmulg_ok {d : PReg} {a : VReg} {s t : State} (h : runPmulg d a s = .ok t) : ∃ q, t = s.setP d q := by
  rcases runPmulg_cases d a s with ⟨-, e⟩ | ⟨-, ⟨x, y, -, e⟩ | ⟨-, e⟩ | ⟨-, e⟩⟩ <;> cases e.symm.trans h
  exact ⟨.aff x y, rfl⟩

/-! ## Commands -/

/-- A command that succeeds leaves the bookkeeping legal: a sponge command by its own check or the phase, any other
because it writes V and INF alone. -/
theorem commandResult_spongeLegal {i : Instr} {s t : State} (hs : s.SpongeLegal) (h : commandResult i s = .ok t) :
    t.SpongeLegal := by
  have ofV {d : VReg} (hv : ∃ x, t = s.setV d x) : t.SpongeLegal := by
    obtain ⟨x, rfl⟩ := hv
    exact hs.of_same (s.setV_arate d x) (s.setV_pos d x) (s.setV_phase d x)
  have ofP {d : PReg} (hp : ∃ q, t = s.setP d q) : t.SpongeLegal := by
    obtain ⟨q, rfl⟩ := hp
    exact hs.of_same (s.setP_arate d q) (s.setP_pos d q) (s.setP_phase d q)
  cases i with
  | kinit => exact runKinit_spongeLegal h
  | kabs n => exact runKabs_spongeLegal hs h
  | kfin => exact runKfin_spongeLegal hs h
  | ksqz n => exact runKsqz_spongeLegal hs h
  | kperm => exact runKperm_spongeLegal hs h
  | fadd d a b => exact ofV (fieldBinary_ok h)
  | fsub d a b => exact ofV (fieldBinary_ok h)
  | fmul d a b => exact ofV (fieldBinary_ok h)
  | finv d a => exact ofV (runFinv_ok h)
  | padd d a b => exact ofP (runPadd_ok h)
  | pdbl d a => exact ofP (runPdbl_ok h)
  | pmulg d a => exact ofP (runPmulg_ok h)

/-! ## The host, the engine, a step -/

/-- If there is a next state, its bookkeeping is legal. -/
def NextSpongeLegal (o : Host.Outcome State Fault Refusal) : Prop := ∀ t, o = .next t → t.SpongeLegal

@[simp] theorem nextSpongeLegal_next (t : State) : NextSpongeLegal (.next t) ↔ t.SpongeLegal :=
  ⟨fun h => h t rfl, fun h _ e => Host.Outcome.next.inj e ▸ h⟩

@[simp] theorem nextSpongeLegal_refused (r : Refusal) : NextSpongeLegal (.refused r) := by
  rintro t ⟨⟩

theorem exec_spongeLegal (i : Instr) {s : State} (hs : s.SpongeLegal) : NextSpongeLegal (exec i s) := by
  rcases exec_cases i s with ⟨t, h, e⟩ | ⟨c, -, e⟩ <;> rw [e, nextSpongeLegal_next]
  · exact (commandResult_spongeLegal hs h).complete .ok
  · exact hs.complete c

theorem engineStep_spongeLegal {s : State} (hs : s.SpongeLegal) : NextSpongeLegal (engineStep s) := by
  rcases engineStep_cases s with ⟨-, e⟩ | ⟨w, -, ⟨-, e⟩ | ⟨-, -, e⟩ | ⟨-, i, -, e⟩⟩ <;> rw [e]
  · exact (nextSpongeLegal_next _).2 hs
  · exact (nextSpongeLegal_next _).2 (hs.complete .halted)
  · exact (nextSpongeLegal_next _).2 (hs.complete .illegal)
  · exact exec_spongeLegal i hs

theorem writeReg_spongeLegal {s : State} (hs : s.SpongeLegal) (r : HostReg) (v : Word) :
    (writeReg s r v).SpongeLegal := by
  cases r with
  | ctrl =>
    simp only [writeReg, ctrlWrite]
    split
    · exact blockReset_spongeLegal s
    · split
      · exact hs.of_same s.clearFlags_arate s.clearFlags_pos s.clearFlags_phase
      · exact hs
  | _ => exact hs.of_same rfl rfl rfl

theorem hostRead_spongeLegal {s : State} (hs : s.SpongeLegal) (a : Addr) : NextSpongeLegal (hostRead s a) := by
  by_cases ha : aligned a = true
  · obtain ⟨w, d, e⟩ := hostRead_aligned s ha
    rw [e, nextSpongeLegal_next]
    exact hs.of_same rfl rfl rfl
  · rw [hostRead, if_neg ha]
    exact nextSpongeLegal_refused _

theorem hostWrite_spongeLegal {s : State} (hs : s.SpongeLegal) (a : Addr) (v : Word) :
    NextSpongeLegal (hostWrite s a v) := by
  by_cases ha : aligned a = true
  · rcases hostWrite_aligned s v ha with e | e <;> rw [e, nextSpongeLegal_next]
    · exact hs.of_same rfl rfl rfl
    · exact writeReg_spongeLegal hs _ v
  · rw [hostWrite, if_neg ha]
    exact nextSpongeLegal_refused _

theorem handle_spongeLegal {s : State} (hs : s.SpongeLegal) (e : Event) : NextSpongeLegal (handle s e) := by
  cases e with
  | hostRead a => exact hostRead_spongeLegal hs a
  | hostWrite a v => exact hostWrite_spongeLegal hs a v
  | complete => exact engineStep_spongeLegal hs
  | resetInput => exact (nextSpongeLegal_next _).2 (blockReset_spongeLegal s)

theorem step_spongeLegal {s : State} (hs : s.SpongeLegal) : NextSpongeLegal (step s) := by
  cases he : s.events with
  | nil => rw [step_nil he]; exact engineStep_spongeLegal hs
  | cons e rest => rw [step_cons he]; exact handle_spongeLegal (s := { s with events := rest }) hs e

/-- Settles O21: the legal values of R16 are kept by every event and every command. -/
theorem stepKeepsBookkeepingLegal : Obligations.StepKeepsBookkeepingLegal := by
  unfold Obligations.StepKeepsBookkeepingLegal
  intro s t hs ht
  exact step_spongeLegal hs t ht

/-- Settles O20: the rate is 136 and the position 0. -/
theorem resetBookkeepingIsLegal : Obligations.ResetBookkeepingIsLegal := reset_spongeLegal

end Sys2Proof.Machine
end

section
/-! SUPPORT. The fields of STATUS and SPSTAT, the accesses that BUSY does not touch, the reset values and the point
registers (10_state.md R20 to R34). -/

namespace Sys2Proof.Machine

/-! ## Words made of fields -/

/-- The value of a word made of two fields, in arithmetic alone. -/
theorem toNat_append_add {m n : Nat} (x : BitVec m) (y : BitVec n) :
    (x ++ y).toNat = x.toNat * 2 ^ n + y.toNat := by
  rw [BitVec.toNat_append, ← Nat.shiftLeft_add_eq_or_of_lt y.isLt, Nat.shiftLeft_eq]

theorem toNat_toBit (p : Phase) : p.toBit.toNat = if p = .squeeze then 1 else 0 := by
  cases p <;> rfl

/-- STATUS as a number (10_state.md R24). -/
theorem statusWord_toNat (s : State) :
    (statusWord s).toNat = s.busy.toNat + 2 * s.fatal.toNat + 2 ^ 2 * s.sticky.toNat + 2 ^ 3 * s.ovr.toNat +
      2 ^ 8 * s.code.toByte.toNat := by
  simp only [statusWord, toNat_append_add, BitVec.toNat_ofBool, BitVec.toNat_ofNat]
  omega

/-- SPSTAT as a number (10_state.md R28). -/
theorem spstatWord_toNat (s : State) :
    (spstatWord s).toNat = s.pos.toNat + 2 ^ 8 * s.phase.toBit.toNat + 2 ^ 16 * s.arate.toNat +
      2 ^ 24 * s.asuffix.toNat := by
  simp only [spstatWord, toNat_append_add, BitVec.toNat_ofNat]
  omega

/-- Settles O51: each field is a digit of the value of STATUS. -/
theorem statusFields : Obligations.StatusFields := by
  unfold Obligations.StatusFields
  intro s
  have hbusy := s.busy.toNat_lt
  have hfatal := s.fatal.toNat_lt
  have hsticky := s.sticky.toNat_lt
  have hovr := s.ovr.toNat_lt
  have hcode := s.code.toByte.isLt
  simp only [bits, statusWord_toNat]
  omega

/-! ## Accesses that BUSY does not touch (70_reset_and_hazards.md R127, R128) -/

theorem hostRead_specified (s : State) {a : Addr} (ha : aligned a = true)
    (hr : (hostReg a).unspecifiedWhileBusy = false) :
    hostRead s a = .next { s with readLog := (a, idleRead s a) :: s.readLog } := by
  rw [hostRead, if_pos ha, hr, Bool.and_false, if_neg Bool.false_ne_true]
  rfl

theorem hostWrite_performed (s : State) {a : Addr} (v : Word) (ha : aligned a = true)
    (hr : (hostReg a).droppedWhileBusy = false) : hostWrite s a v = .next (writeReg s (hostReg a) v) := by
  rw [hostWrite, if_pos ha, hr, Bool.and_false, if_neg Bool.false_ne_true]

theorem hostWrite_ctrl (s : State) (v : Word) : hostWrite s 0x008 v = .next (ctrlWrite s v) :=
  hostWrite_performed s v rfl rfl

theorem hostWrite_spstat (s : State) (v : Word) : hostWrite s 0x014 v = .next s :=
  hostWrite_performed s v rfl rfl

/-! The three cases of a write to CTRL (10_state.md R25). -/

theorem ctrlWrite_srst (s : State) {v : Word} (h1 : v.getLsbD 1 = true) : ctrlWrite s v = s.blockReset := by
  rw [ctrlWrite, if_pos h1]

theorem ctrlWrite_clr (s : State) {v : Word} (h1 : v.getLsbD 1 = false) (h0 : v.getLsbD 0 = true) :
    ctrlWrite s v = { s with sticky := false, ovr := false } := by
  rw [ctrlWrite, if_neg (Bool.eq_false_iff.1 h1), if_pos h0, State.clearFlags]

theorem ctrlWrite_neither (s : State) {v : Word} (h1 : v.getLsbD 1 = false) (h0 : v.getLsbD 0 = false) :
    ctrlWrite s v = s := by
  rw [ctrlWrite, if_neg (Bool.eq_false_iff.1 h1), if_neg (Bool.eq_false_iff.1 h0)]

/-- Settles O58: the write is `ctrlWrite` busy or idle, and each clause is one of its cases. -/
theorem ctrlClearsOrResets : Obligations.CtrlClearsOrResets := by
  unfold Obligations.CtrlClearsOrResets
  intro s v
  rw [hostWrite_ctrl]
  refine ⟨fun h1 => ?_, fun h1 h0 => ?_, fun h1 h0 => ?_, hostRead_specified s rfl rfl⟩
  · rw [ctrlWrite_srst s h1]
  · rw [ctrlWrite_clr s h1 h0]
  · rw [ctrlWrite_neither s h1 h0]

/-! ## Reset (10_state.md R34) -/

theorem spstatWord_reset : spstatWord State.reset = 0x01880000 := rfl

/-- Settles O17: each register's value, lane by lane for the Keccak state. -/
theorem resetValues : Obligations.ResetValues := by
  unfold Obligations.ResetValues
  have hlanes (i : Fin 25) : State.reset.lanes[i] = 0 := Vector.getElem_replicate _
  exact ⟨hlanes, rfl, rfl, rfl, rfl, rfl, rfl, rfl, rfl, rfl, spstatWord_reset, rfl, rfl, rfl⟩

/-- Settles O52: each field is a digit of the value of SPSTAT. -/
theorem spstatFields : Obligations.SpstatFields := by
  unfold Obligations.SpstatFields
  intro s
  have hpos := s.pos.isLt
  have hphase := s.phase.toBit.isLt
  have harate := s.arate.isLt
  have hasuffix := s.asuffix.isLt
  rw [← toNat_toBit]
  simp only [bits, spstatWord_toNat]
  refine ⟨?_, ?_, ?_, ?_, ?_, rfl, hostWrite_spstat s, spstatWord_reset⟩ <;> omega

/-! ## Point registers (10_state.md R20, R21) -/

theorem getP_of_inf {s : State} {j : PReg} (h : s.inf[j] = true) : s.getP j = .inf := by
  rw [State.getP, if_pos h]

theorem getP_of_not_inf {s : State} {j : PReg} (h : s.inf[j] = false) :
    s.getP j = .aff (s.getV (xReg j)) (s.getV (yReg j)) := by
  rw [State.getP, if_neg (by simp [h])]

theorem State.setP_inf_same (s : State) (j : PReg) (q : Point) : (s.setP j q).inf[j] = q.isInf := by
  simp

/-- Settles O41: reading splits on the flag, writing is read off from the coordinates and the flag of the point. -/
theorem pointRegisterReadsAndWrites : Obligations.PointRegisterReadsAndWrites := by
  unfold Obligations.PointRegisterReadsAndWrites
  intro s j
  have hinf : Point.inf.Fits := ⟨by decide, by decide⟩
  refine ⟨getP_of_inf, getP_of_not_inf, ⟨?_, ?_, ?_⟩, fun x y hx hy => ?_⟩
  · exact s.getV_setP_x j hinf
  · exact s.getV_setP_y j hinf
  · exact s.setP_inf_same j .inf
  · have haff : (Point.aff x y).Fits := ⟨hx, hy⟩
    exact ⟨s.getV_setP_x j haff, s.getV_setP_y j haff, s.setP_inf_same j _⟩

end Sys2Proof.Machine
end

section
/-! SUPPORT. The register map and the host's accesses (20_memory.md R35 to R46): which address is which register, what an
access does by the kind of its register, and that aligned accesses never stop the block. -/

namespace Sys2Proof.Machine

/-! ## Events answer a next state (20_memory.md R35, 60_exceptions.md R108) -/

theorem hostRead_next (s : State) {a : Addr} (h : aligned a = true) :
    ∃ t, hostRead s a = .next t ∧ s.SameBlock t ∧ t.events = s.events := by
  obtain ⟨w, d, e⟩ := hostRead_aligned s h
  exact ⟨_, e, rfl, rfl⟩

theorem hostWrite_next (s : State) {a : Addr} (v : Word) (h : aligned a = true) :
    ∃ t, hostWrite s a v = .next t ∧ t.events = s.events := by
  obtain ⟨hevents, -⟩ := writeReg_keeps s (hostReg a) v
  rcases hostWrite_aligned s v h with e | e
  · exact ⟨_, e, rfl⟩
  · exact ⟨_, e, hevents⟩

/-- An aligned event has a next state and leaves the list of the events to come as it is. -/
theorem handle_next (s : State) {e : Event} (h : e.isAligned = true) :
    ∃ t, handle s e = .next t ∧ t.events = s.events := by
  cases e with
  | hostRead a =>
    obtain ⟨t, ht, -, hevents⟩ := hostRead_next s (a := a) h
    exact ⟨t, ht, hevents⟩
  | hostWrite a v => exact hostWrite_next s v h
  | complete =>
    obtain ⟨t, ht, -, hevents⟩ := engineStep_next s
    exact ⟨t, ht, hevents⟩
  | resetInput => exact ⟨_, rfl, s.blockReset_events⟩

/-- Settles O16: an aligned event has a next state, and a step only shortens the list of events. -/
theorem alignedAccessesNeverStop : Obligations.AlignedAccessesNeverStop := by
  unfold Obligations.AlignedAccessesNeverStop
  intro s hs
  cases he : s.events with
  | nil =>
    obtain ⟨t, ht, -, hevents⟩ := engineStep_next s
    exact ⟨t, (step_nil he).trans ht, by rw [hevents, he]; rfl⟩
  | cons e rest =>
    rw [he, List.all_cons, Bool.and_eq_true] at hs
    obtain ⟨hfirst, hrest⟩ := hs
    obtain ⟨t, ht, hevents⟩ := handle_next { s with events := rest } hfirst
    exact ⟨t, (step_cons he).trans ht, by rw [hevents]; exact hrest⟩

/-! ## The addresses of the wide registers (20_memory.md R37, R38) -/

theorem hostReg_laneLo (i : Fin 25) : hostReg (BitVec.ofNat 12 (0x100 + 8 * i.val)) = .laneLo i := by
  have ha : (BitVec.ofNat 12 (0x100 + 8 * i.val)).toNat = 0x100 + 8 * i.val :=
    Nat.mod_eq_of_lt (by omega)
  have hi : laneNum ((0x100 + 8 * i.val - 0x100) / 8) = i := Fin.ext (by simp only [laneNum]; omega)
  rw [hostReg_lane (by omega) (by omega), ha, if_pos (by omega), hi]

theorem hostReg_laneHi (i : Fin 25) : hostReg (BitVec.ofNat 12 (0x104 + 8 * i.val)) = .laneHi i := by
  have ha : (BitVec.ofNat 12 (0x104 + 8 * i.val)).toNat = 0x104 + 8 * i.val :=
    Nat.mod_eq_of_lt (by omega)
  have hi : laneNum ((0x104 + 8 * i.val - 0x100) / 8) = i := Fin.ext (by simp only [laneNum]; omega)
  rw [hostReg_lane (by omega) (by omega), ha, if_neg (by omega), hi]

theorem hostReg_vWord (i : VReg) (j : Fin 8) :
    hostReg (BitVec.ofNat 12 (0x200 + 32 * i.val + 4 * j.val)) = .vWord i j := by
  have ha : (BitVec.ofNat 12 (0x200 + 32 * i.val + 4 * j.val)).toNat = 0x200 + 32 * i.val + 4 * j.val :=
    Nat.mod_eq_of_lt (by omega)
  have hi : vNum ((0x200 + 32 * i.val + 4 * j.val - 0x200) / 32) = i := Fin.ext (by simp only [vNum]; omega)
  have hj : wordNum ((0x200 + 32 * i.val + 4 * j.val) % 32 / 4) = j := Fin.ext (by simp only [wordNum]; omega)
  rw [hostReg_v (by omega) (by omega), ha, hi, hj]

/-- Settles O50: each address is its register, and a word of V is a digit of its value. -/
theorem registerMapWords : Obligations.RegisterMapWords := by
  unfold Obligations.RegisterMapWords
  intro s
  refine ⟨fun i => ⟨?_, ?_⟩, fun i j => ?_, rfl, rfl, rfl, rfl, infWord_getLsbD s, rfl, rfl, rfl, rfl⟩
  · rw [idleRead, hostReg_laneLo, readReg, loWord]
  · rw [idleRead, hostReg_laneHi, readReg, hiWord]
  · rw [idleRead, hostReg_vWord]
    exact Big.word_eq s.v[i] j

/-! ## Accesses that are refused, and accesses of an idle block (20_memory.md R44, R46) -/

/-- Settles O53: both accesses check the alignment before anything else. -/
theorem misalignedAccessIsRefused : Obligations.MisalignedAccessIsRefused := by
  unfold Obligations.MisalignedAccessIsRefused
  intro s a h
  have ha : ¬ aligned a = true := mt (aligned_iff a).1 h
  exact ⟨if_neg ha, fun v => if_neg ha⟩

theorem State.busy_of_idle {s : State} (h : s.inflight = none) : s.busy = false := by
  rw [State.busy, h, Option.isSome_none]

theorem hostRead_idle {s : State} {a : Addr} (hs : s.inflight = none) (ha : aligned a = true) :
    hostRead s a = .next { s with readLog := (a, idleRead s a) :: s.readLog } := by
  rw [hostRead, if_pos ha, State.busy_of_idle hs, Bool.false_and, if_neg Bool.false_ne_true]
  rfl

theorem hostWrite_idle {s : State} {a : Addr} (v : Word) (hs : s.inflight = none) (ha : aligned a = true) :
    hostWrite s a v = .next (writeReg s (hostReg a) v) := by
  rw [hostWrite, if_pos ha, State.busy_of_idle hs, Bool.false_and, if_neg Bool.false_ne_true]

/-- Settles O54: a read writes the model's own list of answers and its count of draws alone. -/
theorem readsHaveNoSideEffect : Obligations.ReadsHaveNoSideEffect := by
  unfold Obligations.ReadsHaveNoSideEffect
  intro s a h
  have ha : aligned a = true := (aligned_iff a).2 h
  exact ⟨hostRead_next s ha, fun hs => hostRead_idle hs ha⟩

/-! ## Registers that ignore writes, registers that read 0 (20_memory.md R39, R40) -/

/-- The read-only and the reserved registers. -/
def HostReg.ignoresWrites : HostReg → Bool
  | .status | .errcmd | .spstat | .doutLo | .doutHi | .reserved => true
  | .cmd | .ctrl | .spcfg | .dinLo | .dinHi | .laneLo _ | .laneHi _ | .vWord _ _ | .inf => false

/-- The write-only and the reserved registers. -/
def HostReg.readsZero : HostReg → Bool
  | .cmd | .ctrl | .reserved => true
  | .status | .errcmd | .spcfg | .spstat | .dinLo | .dinHi | .doutLo | .doutHi | .laneLo _ | .laneHi _
  | .vWord _ _ | .inf => false

theorem writeReg_ignored (s : State) {r : HostReg} (v : Word) (h : r.ignoresWrites = true) : writeReg s r v = s := by
  cases r with
  | status | errcmd | spstat | doutLo | doutHi | reserved => rfl
  | _ => cases h

theorem readReg_zero (s : State) {r : HostReg} (h : r.readsZero = true) : readReg s r = 0 := by
  cases r with
  | cmd | ctrl | reserved => rfl
  | _ => cases h

theorem HostReg.not_dropped_of_ignoresWrites {r : HostReg} (h : r.ignoresWrites = true) :
    r.droppedWhileBusy = false := by
  cases r with
  | status | errcmd | spstat | doutLo | doutHi | reserved => rfl
  | _ => cases h

theorem HostReg.specified_of_readsZero {r : HostReg} (h : r.readsZero = true) : r.unspecifiedWhileBusy = false := by
  cases r with
  | cmd | ctrl | reserved => rfl
  | _ => cases h

/-- Busy or idle, a write to a read-only or reserved address has no effect. -/
theorem hostWrite_ignored (s : State) {a : Addr} (v : Word) (ha : aligned a = true)
    (hr : (hostReg a).ignoresWrites = true) : hostWrite s a v = .next s := by
  rw [hostWrite_performed s v ha (HostReg.not_dropped_of_ignoresWrites hr), writeReg_ignored s v hr]

/-- Busy or idle, a read of a write-only or reserved address answers 0. -/
theorem hostRead_zero (s : State) {a : Addr} (ha : aligned a = true) (hr : (hostReg a).readsZero = true) :
    hostRead s a = .next { s with readLog := (a, 0) :: s.readLog } := by
  rw [hostRead_specified s ha (HostReg.specified_of_readsZero hr), idleRead, readReg_zero s hr]

/-- Settles O56: the five addresses are registers that ignore writes, the two are registers that read 0. -/
theorem readOnlyIgnoresWrites : Obligations.ReadOnlyIgnoresWrites := by
  unfold Obligations.ReadOnlyIgnoresWrites
  intro s
  simp only [List.forall_mem_cons]
  refine ⟨⟨?status, ?errcmd, ?spstat, ?doutLo, ?doutHi, List.forall_mem_nil _⟩, ?cmd, ?ctrl, List.forall_mem_nil _⟩
  case status | errcmd | spstat | doutLo | doutHi => exact fun v => hostWrite_ignored s v rfl rfl
  case cmd | ctrl => exact hostRead_zero s rfl rfl

/-! ## Reserved bits (20_memory.md R39) -/

/-- SPCFG as a number (10_state.md R27). -/
theorem spcfgWord_toNat (s : State) : (spcfgWord s).toNat = s.spRate.toNat + 2 ^ 8 * s.spSuffix.toNat := by
  simp only [spcfgWord, toNat_append_add, BitVec.toNat_ofNat]
  omega

theorem bits_spcfgWord_reserved (s : State) : bits (spcfgWord s) 31 16 = 0 := by
  have hrate := s.spRate.isLt
  have hsuffix := s.spSuffix.isLt
  simp only [bits, spcfgWord_toNat]
  omega

theorem bits_infWord_reserved (s : State) : bits (infWord s) 31 8 = 0 := by
  rw [bits, Nat.div_eq_of_lt (infWord_lt s), Nat.zero_mod]

/-- A host write depends on the written word only as its register does. -/
theorem hostWrite_congr {s : State} {a : Addr} {v w : Word}
    (h : writeReg s (hostReg a) v = writeReg s (hostReg a) w) : hostWrite s a v = hostWrite s a w := by
  rw [hostWrite, hostWrite, h]

theorem writeReg_spcfg_mask (s : State) (v : Word) : writeReg s .spcfg v = writeReg s .spcfg (v &&& 0x0000FFFF) := by
  have hrate : (v &&& 0x0000FFFF).extractLsb' 0 8 = v.extractLsb' 0 8 := by
    rw [BitVec.extractLsb'_and]
    exact BitVec.and_allOnes
  have hsuffix : (v &&& 0x0000FFFF).extractLsb' 8 8 = v.extractLsb' 8 8 := by
    rw [BitVec.extractLsb'_and]
    exact BitVec.and_allOnes
  simp only [writeReg, hrate, hsuffix]

theorem writeReg_inf_mask (s : State) (v : Word) : writeReg s .inf v = writeReg s .inf (v &&& 0x000000FF) := by
  have hmask : ∀ j : Fin 8, (0x000000FF : Word).getLsbD j = true := by decide
  simp only [writeReg, BitVec.getLsbD_and, hmask, Bool.and_true]

theorem ctrlWrite_mask (s : State) (v : Word) : ctrlWrite s v = ctrlWrite s (v &&& 0x00000003) := by
  have hsrst : (0x00000003 : Word).getLsbD 1 = true := rfl
  have hclr : (0x00000003 : Word).getLsbD 0 = true := rfl
  simp only [ctrlWrite, BitVec.getLsbD_and, hsrst, hclr, Bool.and_true]

/-- Settles O55: a reserved address reads 0 and ignores writes by the kind of its register; a reserved bit is a digit that the
word's value lacks, and a write takes none of it. -/
theorem reservedReadsZeroIgnoresWrites : Obligations.ReservedReadsZeroIgnoresWrites := by
  unfold Obligations.ReservedReadsZeroIgnoresWrites
  intro s
  obtain ⟨-, -, -, -, hstatusLow, -, hstatusHigh⟩ := statusFields s
  obtain ⟨-, -, hspstat, -⟩ := spstatFields s
  refine ⟨fun a v h hrange => ?_, hstatusLow, hstatusHigh, bits_spcfgWord_reserved s, hspstat,
    bits_infWord_reserved s, fun v => ⟨?_, ?_, ?_⟩⟩
  · have ha : aligned a = true := (aligned_iff a).2 h
    have hr : hostReg a = .reserved := hostReg_reserved hrange
    exact ⟨hostRead_zero s ha (by rw [hr]; rfl), hostWrite_ignored s v ha (by rw [hr]; rfl)⟩
  · exact hostWrite_congr (writeReg_spcfg_mask s v)
  · exact hostWrite_congr (writeReg_inf_mask s v)
  · exact hostWrite_congr (ctrlWrite_mask s v)

/-! ## A write stores one word (20_memory.md R37, R46) -/

/-- CMD is at 0x000 only. -/
theorem hostReg_cmd {a : Addr} (ha : aligned a = true) (h : hostReg a = .cmd) : a = 0x000 :=
  hostReg_inj ha rfl h (by rw [h]; exact HostReg.noConfusion)

/-- A write at any address but CMD and CTRL leaves the word of every other address as it was. -/
theorem idleRead_writeReg_ne (s : State) {a b : Addr} (v : Word) (ha : aligned a = true) (hb : aligned b = true)
    (hcmd : a ≠ 0x000) (hctrl : a ≠ 0x008) (hne : b ≠ a) :
    idleRead (writeReg s (hostReg a) v) b = idleRead s b := by
  by_cases hr : hostReg a = .reserved
  · rw [hr, writeReg_ignored s v rfl]
  · have hreg : hostReg b ≠ hostReg a := fun h => hne (hostReg_inj ha hb h.symm hr).symm
    exact readReg_writeReg_ne s v (mt (hostReg_cmd ha) hcmd) (mt hostReg_ctrl hctrl) hreg

/-- A word of a lane, of a V register or of DIN reads back as it was written. -/
theorem idleRead_writeReg_same (s : State) {a : Addr} (v : Word)
    (h : (0x100 ≤ a.toNat ∧ a.toNat < 0x1C8) ∨ (0x200 ≤ a.toNat ∧ a.toNat < 0x400) ∨ a = 0x018 ∨ a = 0x01C) :
    idleRead (writeReg s (hostReg a) v) a = v := by
  obtain ⟨hdinLo, hdinHi, hlaneLo, hlaneHi, hv⟩ := readReg_writeReg_same s v
  rcases h with ⟨hlo, hhi⟩ | ⟨hlo, hhi⟩ | rfl | rfl
  · rw [idleRead, hostReg_lane hlo hhi]
    split
    · exact hlaneLo _
    · exact hlaneHi _
  · rw [idleRead, hostReg_v hlo hhi]
    exact hv _ _
  · exact hdinLo
  · exact hdinHi

/-- Settles O57: two addresses share no register, and each register that stores reads back what its write keeps. -/
theorem hostWriteStoresOneWord : Obligations.HostWriteStoresOneWord := by
  unfold Obligations.HostWriteStoresOneWord
  intro s a v hs h hcmd hctrl
  have ha : aligned a = true := (aligned_iff a).2 h
  refine ⟨_, hostWrite_idle v hs ha, fun b hb hne => ?_, idleRead_writeReg_same s v, ?_, ?_⟩
  · exact idleRead_writeReg_ne s v ha ((aligned_iff b).2 hb) hcmd hctrl hne
  · rintro rfl
    exact spcfgWord_write s v
  · rintro rfl
    exact infWord_write s v

end Sys2Proof.Machine
end

section
/-! SUPPORT. The decoder, the encoder and the match and mask rows are one table (30_encoding.md R54 to R61): a row that selects
a word names a command with that encoding, an encoding decodes to its command, and a word that decodes is selected by a row. -/

namespace Sys2Proof

/-! ## Fields (30_encoding.md R54, R56) -/

theorem bits_and {n : Nat} (w m : BitVec n) (hi lo : Nat) : bits (w &&& m) hi lo = bits w hi lo &&& bits m hi lo := by
  simp only [bits, BitVec.toNat_and, Nat.and_div_two_pow, Nat.and_mod_two_pow]

/-- Two words are one when their five fields agree. -/
theorem word_eq_iff_fields (w x : Word) :
    w = x ↔ opField w = opField x ∧ dField w = dField x ∧ aField w = aField x ∧ bField w = bField x ∧
      rsvField w = rsvField x := by
  refine ⟨by rintro rfl; simp, fun ⟨ho, hd, ha, hb, hr⟩ => BitVec.eq_of_toNat_eq ?_⟩
  rw [word_eq_fields w, word_eq_fields x, ho, hd, ha, hb, hr]

/-- A word with RSV = 0 is the command word of its fields, however these are written. -/
theorem commandWord_eq {w : Word} {op d a b : Nat} (hr : rsvField w = 0) (ho : opField w = op) (hd : dField w = d)
    (ha : aField w = a) (hb : bField w = b) : commandWord op d a b = w := by
  rw [← ho, ← hd, ← ha, ← hb, commandWord_fields w hr]

theorem vNum_val_of_lt {f : Nat} (h : f < 16) : (vNum f).val = f := Nat.mod_eq_of_lt h

theorem topBit_eq_zero (f : Nat) : topBit f = 0 ↔ f < 8 := by
  rw [topBit]
  omega

theorem pNum_val_of_lt {f : Nat} (h : f < 8) : (pNum f).val = f := Nat.mod_eq_of_lt h

/-! A field under the three masks of R57: all of it, its top bit, none of it. -/

theorem and_fifteen_eq_zero {f : Nat} (h : f < 16) : f &&& 15 = 0 ↔ f = 0 := by
  rw [Nat.and_two_pow_sub_one_of_lt_two_pow (n := 4) h]

theorem and_eight_eq_zero {f : Nat} (h : f < 16) : f &&& 8 = 0 ↔ f < 8 := by
  have hall : ∀ g : Fin 16, g.val &&& 8 = 0 ↔ g.val < 8 := by decide
  exact hall ⟨f, h⟩

/-! ## The match and mask rows (30_encoding.md R57) -/

/-- Every row matches on all of OP and RSV, and its pattern has no other bit than those of OP. -/
theorem opcodeRows_shape : ∀ r ∈ opcodeRows,
    opField r.mask = 255 ∧ rsvField r.mask = 4095 ∧
      dField r.pattern = 0 ∧ aField r.pattern = 0 ∧ bField r.pattern = 0 ∧ rsvField r.pattern = 0 := by decide

/-- What a row asks of the fields of a word. -/
theorem selects_iff {r : OpcodeRow} (hr : r ∈ opcodeRows) (w : Word) :
    r.selects w = true ↔
      opField w = opField r.pattern ∧ rsvField w = 0 ∧ dField w &&& dField r.mask = 0 ∧
        aField w &&& aField r.mask = 0 ∧ bField w &&& bField r.mask = 0 ∧
        (r.counted = true → countOk (dField w) = true) := by
  obtain ⟨hop, hrsv, hd, ha, hb, hz⟩ := opcodeRows_shape r hr
  have ho : opField w &&& 255 = opField w := Nat.and_two_pow_sub_one_of_lt_two_pow (n := 8) (opField_lt w)
  have hv : rsvField w &&& 4095 = rsvField w :=
    Nat.and_two_pow_sub_one_of_lt_two_pow (n := 12) (Nat.mod_lt _ (by decide))
  have hand : w &&& r.mask = r.pattern ↔ opField w = opField r.pattern ∧ dField w &&& dField r.mask = 0 ∧
      aField w &&& aField r.mask = 0 ∧ bField w &&& bField r.mask = 0 ∧ rsvField w = 0 := by
    rw [word_eq_iff_fields, hd, ha, hb, hz, ← ho, ← hv, ← hop, ← hrsv]
    simp only [opField, dField, aField, bField, rsvField, bits_and]
  have hcount : (!r.counted || countOk (bits w 11 8)) = true ↔ (r.counted = true → countOk (dField w) = true) := by
    rw [dField]
    cases r.counted <;> simp
  rw [OpcodeRow.selects, Bool.and_eq_true, beq_iff_eq, hand, hcount]
  tauto

/-- "At most one row matches any word, because the rows' OP values differ" (R58). -/
theorem selects_unique {w : Word} {r r' : OpcodeRow} (hr : r ∈ opcodeRows) (hr' : r' ∈ opcodeRows)
    (h : r.selects w = true) (h' : r'.selects w = true) : r = r' := by
  have hdiffer : ∀ r ∈ opcodeRows, ∀ r' ∈ opcodeRows, opField r.pattern = opField r'.pattern → r = r' := by decide
  have hop := ((selects_iff hr w).1 h).1
  have hop' := ((selects_iff hr' w).1 h').1
  exact hdiffer r hr r' hr' (hop.symm.trans hop')

/-- A row that selects a word names a command: the one with the word's own D, A and B (R58). -/
theorem command_of_selects {w : Word} {r : OpcodeRow} (hmem : r ∈ opcodeRows) (h : r.selects w = true) :
    ∃ i : Instr, i.wellFormed = true ∧ i.mnemonic = r.mnemonic ∧ encode i = w := by
  obtain ⟨ho, hr, hd, ha, hb, hc⟩ := (selects_iff hmem w).1 h
  have vd := (vNum_val_of_lt (dField_lt w)).symm
  have va := (vNum_val_of_lt (aField_lt w)).symm
  have vb := (vNum_val_of_lt (bField_lt w)).symm
  have zd := (and_fifteen_eq_zero (dField_lt w)).1
  have za := (and_fifteen_eq_zero (aField_lt w)).1
  have zb := (and_fifteen_eq_zero (bField_lt w)).1
  have pd (h : dField w &&& 8 = 0) := (pNum_val_of_lt ((and_eight_eq_zero (dField_lt w)).1 h)).symm
  have pa (h : aField w &&& 8 = 0) := (pNum_val_of_lt ((and_eight_eq_zero (aField_lt w)).1 h)).symm
  have pb (h : bField w &&& 8 = 0) := (pNum_val_of_lt ((and_eight_eq_zero (bField_lt w)).1 h)).symm
  simp only [opcodeRows, List.mem_cons, List.not_mem_nil, or_false] at hmem
  rcases hmem with rfl | rfl | rfl | rfl | rfl | rfl | rfl | rfl | rfl | rfl | rfl | rfl
  · exact ⟨.kinit, rfl, rfl, commandWord_eq hr ho (zd hd) (za ha) (zb hb)⟩
  · exact ⟨.kabs (dField w), hc rfl, rfl, commandWord_eq hr ho rfl (za ha) (zb hb)⟩
  · exact ⟨.kfin, rfl, rfl, commandWord_eq hr ho (zd hd) (za ha) (zb hb)⟩
  · exact ⟨.ksqz (dField w), hc rfl, rfl, commandWord_eq hr ho rfl (za ha) (zb hb)⟩
  · exact ⟨.kperm, rfl, rfl, commandWord_eq hr ho (zd hd) (za ha) (zb hb)⟩
  · exact ⟨.fadd _ _ _, rfl, rfl, commandWord_eq hr ho vd va vb⟩
  · exact ⟨.fsub _ _ _, rfl, rfl, commandWord_eq hr ho vd va vb⟩
  · exact ⟨.fmul _ _ _, rfl, rfl, commandWord_eq hr ho vd va vb⟩
  · exact ⟨.finv _ _, rfl, rfl, commandWord_eq hr ho vd va (zb hb)⟩
  · exact ⟨.padd _ _ _, rfl, rfl, commandWord_eq hr ho (pd hd) (pa ha) (pb hb)⟩
  · exact ⟨.pdbl _ _, rfl, rfl, commandWord_eq hr ho (pd hd) (pa ha) (zb hb)⟩
  · exact ⟨.pmulg _ _, rfl, rfl, commandWord_eq hr ho (pd hd) va (zb hb)⟩

/-! ## Decoding and encoding (30_encoding.md R58, R61) -/

theorem topBit_point (p : PReg) : topBit p.val = 0 := (topBit_eq_zero _).2 p.isLt

theorem decode_encode {i : Instr} (h : i.wellFormed = true) : decode (encode i) = .ok i := by
  cases i with
  | kinit | kfin | kperm => rfl
  | kabs n | ksqz n =>
    have hn := Laws.EncodedFields.count_lt h
    have hc : countOk n = true := h
    simp (disch := omega) [encode, decode, checkedCount_eq_ok, opField_commandWord, dField_commandWord,
      aField_commandWord, bField_commandWord, rsvField_commandWord, hc]
  | fadd _ _ _ | fsub _ _ _ | fmul _ _ _ | finv _ _ | padd _ _ _ | pdbl _ _ | pmulg _ _ =>
    simp (disch := omega) [encode, decode, checked_eq_ok, opField_commandWord, dField_commandWord, aField_commandWord,
      bField_commandWord, rsvField_commandWord, topBit_point]

/-- A word whose fields meet what row k asks is selected. -/
theorem selected_of_row (k : Fin 12) {w : Word} (ho : opField w = opField opcodeRows[k].pattern) (hr : rsvField w = 0)
    (hd : dField w &&& dField opcodeRows[k].mask = 0) (ha : aField w &&& aField opcodeRows[k].mask = 0)
    (hb : bField w &&& bField opcodeRows[k].mask = 0)
    (hc : opcodeRows[k].counted = true → countOk (dField w) = true) : ∃ r ∈ opcodeRows, r.selects w = true :=
  have hmem : opcodeRows[k] ∈ opcodeRows := List.getElem_mem _
  ⟨opcodeRows[k], hmem, (selects_iff hmem w).2 ⟨ho, hr, hd, ha, hb, hc⟩⟩

/-- A word that decodes is selected by a row. -/
theorem selected_of_decode {w : Word} {i : Instr} (h : decode w = .ok i) : ∃ r ∈ opcodeRows, r.selects w = true := by
  have zd := (and_fifteen_eq_zero (dField_lt w)).2
  have za := (and_fifteen_eq_zero (aField_lt w)).2
  have zb := (and_fifteen_eq_zero (bField_lt w)).2
  have td (h : topBit (dField w) = 0) := (and_eight_eq_zero (dField_lt w)).2 ((topBit_eq_zero _).1 h)
  have ta (h : topBit (aField w) = 0) := (and_eight_eq_zero (aField_lt w)).2 ((topBit_eq_zero _).1 h)
  have tb (h : topBit (bField w) = 0) := (and_eight_eq_zero (bField_lt w)).2 ((topBit_eq_zero _).1 h)
  unfold decode at h
  dsimp only at h
  split at h <;> rename_i hop <;>
    simp only [checked_eq_ok, checkedCount_eq_ok, List.forall_mem_cons, reduceCtorEq] at h
  · obtain ⟨hr, ⟨hd, ha, hb, -⟩, -⟩ := h
    exact selected_of_row 0 hop hr (zd hd) (za ha) (zb hb) nofun
  · obtain ⟨hr, ha, hb, hc, -⟩ := h
    exact selected_of_row 1 hop hr (Nat.and_zero _) (za ha) (zb hb) (fun _ => hc)
  · obtain ⟨hr, ⟨hd, ha, hb, -⟩, -⟩ := h
    exact selected_of_row 2 hop hr (zd hd) (za ha) (zb hb) nofun
  · obtain ⟨hr, ha, hb, hc, -⟩ := h
    exact selected_of_row 3 hop hr (Nat.and_zero _) (za ha) (zb hb) (fun _ => hc)
  · obtain ⟨hr, ⟨hd, ha, hb, -⟩, -⟩ := h
    exact selected_of_row 4 hop hr (zd hd) (za ha) (zb hb) nofun
  · exact selected_of_row 5 hop h.1 (Nat.and_zero _) (Nat.and_zero _) (Nat.and_zero _) nofun
  · exact selected_of_row 6 hop h.1 (Nat.and_zero _) (Nat.and_zero _) (Nat.and_zero _) nofun
  · exact selected_of_row 7 hop h.1 (Nat.and_zero _) (Nat.and_zero _) (Nat.and_zero _) nofun
  · obtain ⟨hr, ⟨hb, -⟩, -⟩ := h
    exact selected_of_row 8 hop hr (Nat.and_zero _) (Nat.and_zero _) (zb hb) nofun
  · obtain ⟨hr, ⟨hd, ha, hb, -⟩, -⟩ := h
    exact selected_of_row 9 hop hr (td hd) (ta ha) (tb hb) nofun
  · obtain ⟨hr, ⟨hd, ha, hb, -⟩, -⟩ := h
    exact selected_of_row 10 hop hr (td hd) (ta ha) (zb hb) nofun
  · obtain ⟨hr, ⟨hd, hb, -⟩, -⟩ := h
    exact selected_of_row 11 hop hr (td hd) (Nat.and_zero _) (zb hb) nofun

/-- Decoding and encoding are inverse to each other: a word that decodes is selected by a row, and the command that this row
names decodes from the same word. -/
theorem decode_eq_ok_iff (w : Word) (i : Instr) : decode w = .ok i ↔ i.wellFormed = true ∧ encode i = w := by
  constructor
  · intro h
    obtain ⟨r, hr, hsel⟩ := selected_of_decode h
    obtain ⟨j, hwf, -, rfl⟩ := command_of_selects hr hsel
    obtain rfl : j = i := Except.ok.inj ((decode_encode hwf).symm.trans h)
    exact ⟨hwf, rfl⟩
  · rintro ⟨hwf, rfl⟩
    exact decode_encode hwf

/-- Settles O1: the decoder reads every field of an encoding back. -/
theorem decodeOfEncodeIsTheCommand : Obligations.DecodeOfEncodeIsTheCommand := fun _ => decode_encode

/-- Settles O2: decoding and encoding are inverse to each other, and the rows' OP values differ. -/
theorem decodedWordIsTheEncoding : Obligations.DecodedWordIsTheEncoding :=
  ⟨fun w i => (decode_eq_ok_iff w i).1, fun _ _ hr _ hr' => selects_unique hr hr'⟩

/-- Settles O3: the command of a row that selects the word, and a row for every word that decodes. -/
theorem decodeFollowsMatchAndMask : Obligations.DecodeFollowsMatchAndMask := by
  unfold Obligations.DecodeFollowsMatchAndMask
  refine fun w => ⟨fun r hr h => ?_, fun hnone => ?_⟩
  · obtain ⟨i, hwf, hname, henc⟩ := command_of_selects hr h
    exact ⟨i, (decode_eq_ok_iff w i).2 ⟨hwf, henc⟩, hname, henc⟩
  · cases hdec : decode w with
    | error e => exact ⟨e, rfl⟩
    | ok i =>
      obtain ⟨r, hr, h⟩ := selected_of_decode hdec
      exact absurd h (Bool.eq_false_iff.1 (hnone r hr))

/-- Settles O4: each word is the encoding of its command. -/
theorem wordsOfTheSpecDecode : Obligations.WordsOfTheSpecDecode := by
  unfold Obligations.WordsOfTheSpecDecode
  simp only [decode_eq_ok_iff]
  decide

end Sys2Proof
end

section
/-! SUPPORT. The illegal words and how one completes (30_encoding.md R59, 60_exceptions.md R108). -/

namespace Sys2Proof.Machine

/-- The decoder accepts exactly the words outside the four classes, opcode by opcode. -/
theorem decodes_iff_legal (w : Word) : (∃ i, decode w = .ok i) ↔ illegalWord w = false := by
  unfold decode illegalWord
  dsimp only
  rw [← opField, ← dField, ← aField, ← bField, ← rsvField]
  split <;> rename_i hop <;>
    simp [hop, checked_eq_ok, checkedCount_eq_ok, countOk, topBit_eq_zero, and_assoc, and_left_comm, and_comm]

theorem decode_error_iff_illegal (w : Word) : (∃ e, decode w = .error e) ↔ illegalWord w = true := by
  rw [← Bool.not_eq_false, ← decodes_iff_legal]
  cases decode w <;> simp

theorem engineStep_illegal {s : State} {w : Word} (hw : s.inflight = some w) (hf : s.fatal = false)
    (h : illegalWord w = true) : engineStep s = .next (endsWithError s w .illegal) := by
  obtain ⟨e, he⟩ := (decode_error_iff_illegal w).2 h
  rw [← State.complete_error hw (by decide) (by decide)]
  simp [engineStep, hw, hf, he]

/-- Settles O5: the four classes are the words the decoder refuses, and the engine only reports such a word. -/
theorem illegalWordOnlyReports : Obligations.IllegalWordOnlyReports := by
  unfold Obligations.IllegalWordOnlyReports
  refine fun w => ⟨decode_error_iff_illegal w, fun h s rest hw hf hev => ?_⟩
  rw [step_cons hev]
  exact engineStep_illegal (s := { s with events := rest }) hw hf h

end Sys2Proof.Machine
end

section
/-! SUPPORT. The permutation lane by lane in the coordinates of R66, and the derivation of its tables
(40_keccak_permutation.md R66 to R76). -/

namespace Sys2Proof.Machine

/-! ## Lanes by coordinates (R66) -/

theorem lane_of_row_lt (a : Lanes) (x : Nat) {y : Nat} (hy : y < 5) :
    lane a x y = a[x % 5 + 5 * y]'(by omega) := by
  simp only [lane_eq, Nat.mod_eq_of_lt hy]

theorem lane_of_lt (a : Lanes) {x y : Nat} (hx : x < 5) (hy : y < 5) : lane a x y = a[x + 5 * y]'(by omega) := by
  simp only [lane_of_row_lt a x hy, Nat.mod_eq_of_lt hx]

/-- The column of a lane counts mod 5. -/
theorem lane_congr (a : Lanes) {x x' : Nat} (y : Nat) (h : x % 5 = x' % 5) : lane a x y = lane a x' y := by
  rw [lane, lane, h]

theorem columnParity_mod (a : Lanes) (x : Nat) : columnParity a (x % 5) = columnParity a x := by
  simp only [columnParity, lane_congr a _ (Nat.mod_mod x 5)]

theorem columnParity_eq (a : Lanes) (x : Nat) :
    columnParity a x = a[x % 5]'(by omega) ^^^ a[x % 5 + 5]'(by omega) ^^^ a[x % 5 + 10]'(by omega) ^^^
      a[x % 5 + 15]'(by omega) ^^^ a[x % 5 + 20]'(by omega) := by
  simp (disch := decide) only [columnParity, lane_of_row_lt]
  rfl

/-! ## The steps of a round (R68 to R71) -/

theorem theta_get (a : Lanes) {x y : Nat} (hx : x < 5) (hy : y < 5) :
    (theta a)[x + 5 * y]'(by omega) =
      lane a x y ^^^ (columnParity a (x + 4) ^^^ rotl64 (columnParity a (x + 1)) 1) := by
  simp only [theta, ofLanes_get _ hx hy, five_getD (columnParity a), columnParity_mod]

/-- Settles O22: each lane with the parities of the two columns beside it. -/
theorem thetaOfEveryLane : Obligations.ThetaOfEveryLane := by
  unfold Obligations.ThetaOfEveryLane
  intro a x y c
  have hrot (v : Lane) : rotl64 v 1 = v.rotateLeft 1 := rotl64_eq v (by decide)
  rw [theta_get a x.isLt y.isLt, lane_of_lt a x.isLt y.isLt, hrot, columnParity_eq, columnParity_eq]

/-- π read from its destination: (x', y') takes the lane of (x' + 3y', x') (R69). -/
theorem piRho_get (a : Lanes) {x y : Nat} (hx : x < 5) (hy : y < 5) :
    (piRho a)[x + 5 * y]'(by omega) = rotl64 (lane a (x + 3 * y) x) (rot ((x + 3 * y) % 5) x) :=
  ofLanes_get _ hx hy

/-- The source of the destination (y, 2x + 3y) is in column x, because y + 3(2x + 3y) = x mod 5. -/
theorem pi_source_column {x y : Nat} (hx : x < 5) : (y + 3 * ((2 * x + 3 * y) % 5)) % 5 = x := by omega

/-- Settles O23: the source of the destination (y, 2x + 3y) is (x, y). -/
theorem rhoPiMovesEveryLane : Obligations.RhoPiMovesEveryLane := by
  unfold Obligations.RhoPiMovesEveryLane
  intro a x y
  have hsource := pi_source_column (y := y.val) x.isLt
  rw [piRho_get a y.isLt (Nat.mod_lt _ (by decide)), hsource, rotl64_eq _ (rot_lt x y)]
  simp only [lane_of_row_lt a _ y.isLt, hsource]

theorem chi_get (b : Lanes) {x y : Nat} (hx : x < 5) (hy : y < 5) :
    (chi b)[x + 5 * y]'(by omega) = lane b x y ^^^ (~~~(lane b (x + 1) y) &&& lane b (x + 2) y) :=
  ofLanes_get _ hx hy

/-- Settles O24: the three lanes are those of one row of the argument. -/
theorem chiOfEveryLane : Obligations.ChiOfEveryLane := by
  unfold Obligations.ChiOfEveryLane
  intro b x y
  rw [chi_get b x.isLt y.isLt, lane_of_lt b x.isLt y.isLt, lane_of_row_lt b _ y.isLt, lane_of_row_lt b _ y.isLt]

theorem iota_zero (a : Lanes) (i : Nat) : (iota a i)[0] = a[0] ^^^ roundConstant i :=
  Vector.getElem_set_self _

theorem iota_ne (a : Lanes) (i : Nat) {j : Nat} (hj : j < 25) (h : j ≠ 0) : (iota a i)[j] = a[j] :=
  Vector.getElem_set_ne _ hj h.symm

/-- Settles O25: lane 0 and the other lanes apart; a round is its steps in order. -/
theorem iotaAndTheRounds : Obligations.IotaAndTheRounds := by
  unfold Obligations.IotaAndTheRounds
  refine ⟨fun a i j => ?_, fun a => rfl⟩
  split
  next h =>
    subst h
    exact iota_zero a i
  next h => exact iota_ne a i j.isLt (Fin.val_ne_of_ne h)

/-! ## The tables (R72, R73) -/

/-- The LFSR of R73 gives the round constants of R72. -/
theorem roundConstant_derived : ∀ i : Fin 24, (roundConstant i).toNat = derivedConstant i := by decide

/-- The walk of R73 gives the rotation offsets of R72. -/
theorem rot_derived : ∀ e ∈ derivedOffsets 24 0 1 0, rot e.1 e.2.1 = e.2.2 := by decide

theorem derivedOffsets_nodup : ((derivedOffsets 24 0 1 0).map fun e => e.1 + 5 * e.2.1).Nodup := by decide

/-- Settles O26: both tables, entry by entry; the walk leaves out (0, 0) alone, whose offset is 0. -/
theorem tablesMatchTheirDerivation : Obligations.TablesMatchTheirDerivation :=
  ⟨roundConstant_derived, rfl, rot_derived, derivedOffsets_nodup⟩

/-! ## KPERM (R76) -/

/-- Settles O27: KPERM checks nothing, so it completes with OK in either phase. -/
theorem kpermPermutes : Obligations.KpermPermutes := by
  unfold Obligations.KpermPermutes
  refine ⟨rfl, fun s => ?_⟩
  rw [exec_eq_finish, commandResult, runKperm, State.finish_ok, State.complete_ok]

end Sys2Proof.Machine
end

section
/-! SUPPORT. The sponge commands one by one, and the sequence KINIT, KABS, KFIN, KSQZ as the sponge of the source
(41_sponge.md R77 to R85). -/

namespace Sys2Proof.Machine

/-! ## State bytes (R77) -/

/-- Settles O28: the lane's byte, and the byte that XorStateByte names. -/
theorem stateBytesAreLittleEndian : Obligations.StateBytesAreLittleEndian := by
  unfold Obligations.StateBytesAreLittleEndian
  refine fun l j => ⟨?_, fun k b => ?_⟩
  · rw [stateByte, byteOf, laneAt_lt l (by omega)]
  · rw [stateByte_xorStateByte l j.isLt k.isLt]
    by_cases h : k = j
    · simp [h]
    · simp [h, Fin.val_ne_of_ne h]

/-! ## How a command ends -/

theorem exec_of_ok {i : Instr} {s t : State} (h : commandResult i s = .ok t) :
    exec i s = .next { t with code := .ok, inflight := none } := by
  rw [exec_eq_finish, h, State.finish_ok, State.complete_ok]

theorem exec_of_error {i : Instr} {s : State} {w : Word} {c : ResultCode} (hw : s.inflight = some w)
    (h : commandResult i s = .error c) (hc : c ≠ .ok) (hi : c ≠ .invariant) :
    exec i s = .next (endsWithError s w c) := by
  rw [exec_eq_finish, h, State.finish_error, State.complete_error hw hc hi]

theorem exec_of_phase_error {i : Instr} {s : State} {w : Word} (hw : s.inflight = some w)
    (h : commandResult i s = .error .phase) : exec i s = .next (endsWithError s w .phase) :=
  exec_of_error hw h (by decide) (by decide)

/-! ## KINIT (R78, R79) -/

theorem rateLegal_iff (r : Byte) : rateLegal r = true ↔ 1 ≤ r.toNat ∧ r.toNat ≤ 199 := by simp [rateLegal]

theorem runKinit_of_legal {s : State} (hlo : 1 ≤ s.spRate.toNat) (hhi : s.spRate.toNat ≤ 199) :
    runKinit s = .ok { s with
      lanes := Vector.replicate 25 0, pos := 0, phase := .absorb, arate := s.spRate, asuffix := s.spSuffix } :=
  if_pos ((rateLegal_iff _).2 ⟨hlo, hhi⟩)

theorem runKinit_of_illegal {s : State} (h : s.spRate.toNat = 0 ∨ 199 < s.spRate.toNat) :
    runKinit s = .error .cfg :=
  if_neg (by rw [rateLegal_iff]; omega)

theorem exec_kinit_of_legal {s : State} (hlo : 1 ≤ s.spRate.toNat) (hhi : s.spRate.toNat ≤ 199) :
    exec .kinit s = .next { s with
      lanes := Vector.replicate 25 0, pos := 0, phase := .absorb, arate := s.spRate, asuffix := s.spSuffix
      code := .ok, inflight := none } :=
  exec_of_ok (i := .kinit) (runKinit_of_legal hlo hhi)

/-- Settles O29: the check of the rate, and the sponge a legal rate starts. -/
theorem kinitStartsASponge : Obligations.KinitStartsASponge := by
  unfold Obligations.KinitStartsASponge
  refine ⟨rfl, fun s => ⟨fun hlo hhi => ⟨_, exec_kinit_of_legal hlo hhi, fun i => ?_, rfl⟩, fun w hw h => ?_⟩⟩
  · exact Vector.getElem_replicate i.isLt
  · exact exec_of_error hw (runKinit_of_illegal h) (by decide) (by decide)

theorem spcfg_fields_at_reset {s : State} (h : spcfgWord s = 0x00000188) : s.spRate = 136 ∧ s.spSuffix = 0x01 := by
  have hw := spcfgWord_toNat s
  have hr := s.spRate.isLt
  have hn : (0x00000188 : Word).toNat = 392 := rfl
  rw [h, hn] at hw
  have hrate : s.spRate.toNat = 136 := by omega
  have hsuffix : s.spSuffix.toNat = 1 := by omega
  exact ⟨BitVec.eq_of_toNat_eq hrate, BitVec.eq_of_toNat_eq hsuffix⟩

/-- Settles O19: 0x00000188 is rate 136 and suffix 0x01, ARATE and ASUFFIX at reset. -/
theorem resetSpongeIsKinits : Obligations.ResetSpongeIsKinits := by
  unfold Obligations.ResetSpongeIsKinits
  intro s h
  obtain ⟨hrate, hsuffix⟩ := spcfg_fields_at_reset h
  exact ⟨_, exec_kinit_of_legal (by rw [hrate]; decide) (by rw [hrate]; decide), rfl, rfl, rfl, rfl, hrate, hsuffix⟩

/-! ## KABS (R80) -/

/-- The state KABS has reached when bytes 0 to b - 1 of DIN are absorbed. -/
def absorbedPrefix (s : State) (b : Nat) : State := (dinBytes s b).foldl absorbByte s

theorem absorbedPrefix_succ (s : State) (b : Nat) :
    absorbedPrefix s (b + 1) = absorbByte (absorbedPrefix s b) (byteOf s.din b) := by
  rw [absorbedPrefix, dinBytes_succ, List.foldl_append]
  rfl

theorem absorbedPrefix_frame (s : State) (b : Nat) :
    absorbedPrefix s b = { s with lanes := (absorbedPrefix s b).lanes, pos := (absorbedPrefix s b).pos } :=
  absorb_frame _ s

theorem absorbedPrefix_arate (s : State) (b : Nat) : (absorbedPrefix s b).arate = s.arate := absorb_arate _ s

/-- One byte of DIN, in lanes and positions: the block is permuted exactly when the byte fills it. -/
theorem absorbedPrefix_step {s : State} (h : s.pos.toNat < s.arate.toNat) (b : Nat) :
    let u := absorbedPrefix s b
    let t := absorbedPrefix s (b + 1)
    let x := xorStateByte u.lanes u.pos.toNat (byteOf s.din b)
    if u.pos.toNat + 1 = s.arate.toNat then t.lanes = keccakF x ∧ t.pos.toNat = 0
    else t.lanes = x ∧ t.pos.toNat = u.pos.toNat + 1 := by
  intro u t x
  have ht : t = absorbByte u (byteOf s.din b) := absorbedPrefix_succ s b
  have ha : u.arate = s.arate := absorbedPrefix_arate s b
  have hlt : u.pos.toNat < u.arate.toNat := by rw [ha]; exact absorb_pos_lt _ s h
  rw [ht, ← ha]
  rcases absorbByte_cases u (byteOf s.din b) hlt with ⟨hfull, e⟩ | ⟨hroom, hpos, e⟩
  · rw [if_pos hfull, e]
    exact ⟨rfl, rfl⟩
  · rw [if_neg hroom.ne, e]
    exact ⟨rfl, hpos⟩

theorem runKabs_of_absorb {s : State} (n : Nat) (h : s.phase = .absorb) : runKabs n s = .ok (absorbedPrefix s n) :=
  if_pos h

theorem runKabs_of_squeeze {s : State} (n : Nat) (h : s.phase = .squeeze) : runKabs n s = .error .phase :=
  if_neg (by rw [h]; decide)

theorem exec_kabs_of_absorb {s : State} (n : Nat) (h : s.phase = .absorb) :
    exec (.kabs n) s = .next { absorbedPrefix s n with code := .ok, inflight := none } :=
  exec_of_ok (i := .kabs n) (runKabs_of_absorb n h)

/-- Settles O30: the lanes and positions are those of the states that the prefixes of DIN lead to. -/
theorem kabsAbsorbsBytesInOrder : Obligations.KabsAbsorbsBytesInOrder := by
  unfold Obligations.KabsAbsorbsBytesInOrder
  refine fun n _ h8 => ⟨?_, fun s => ⟨fun hs hab => ?_, fun w hw hsq => ?_⟩⟩
  · exact commandWord_toNat (by decide) (by omega) (by decide) (by decide)
  · have ⟨_, _, _, hlt⟩ := hs
    refine ⟨_, fun b => (absorbedPrefix s b).lanes, fun b => (absorbedPrefix s b).pos.toNat,
      exec_kabs_of_absorb n hab, rfl, rfl, fun b _ => absorbedPrefix_step (hlt hab) b, rfl, ?_⟩
    rw [absorbedPrefix_frame]
  · exact exec_of_phase_error hw (runKabs_of_squeeze n hsq)

/-! ## KFIN (R81, R82) -/

theorem runKfin_of_absorb {s : State} (h : s.phase = .absorb) :
    runKfin s = .ok { s with lanes := keccakF (padded s), pos := 0, phase := .squeeze } :=
  if_pos h

theorem runKfin_of_squeeze {s : State} (h : s.phase = .squeeze) : runKfin s = .error .phase :=
  if_neg (by rw [h]; decide)

theorem exec_kfin_of_absorb {s : State} (h : s.phase = .absorb) :
    exec .kfin s = .next { s with
      lanes := keccakF (padded s), pos := 0, phase := .squeeze, code := .ok, inflight := none } :=
  by rw [exec_of_ok (i := .kfin) (runKfin_of_absorb h)]

/-- Settles O31: the phase decides. -/
theorem kfinPadsAndPermutes : Obligations.KfinPadsAndPermutes := by
  unfold Obligations.KfinPadsAndPermutes
  exact ⟨rfl, fun s => ⟨exec_kfin_of_absorb, fun w hw hsq => exec_of_phase_error hw (runKfin_of_squeeze hsq)⟩⟩

/-- The padded state, byte by byte. -/
theorem stateByte_padded {s : State} (hs : s.SpongeLegal) {j : Nat} (hj : j < 200) :
    stateByte (padded s) j = stateByte s.lanes j ^^^ (if j = s.pos.toNat then s.asuffix else 0) ^^^
      (if j = s.arate.toNat - 1 then 0x80 else 0) := by
  obtain ⟨-, hhi, hle, -⟩ := hs
  rw [padded, stateByte_xorStateByte _ (by omega) hj, stateByte_xorStateByte _ (by omega) hj]

/-- Settles O32: the state permuted is the padded one. -/
theorem paddingXorsTwoBytes : Obligations.PaddingXorsTwoBytes := by
  unfold Obligations.PaddingXorsTwoBytes
  exact fun s hs hab => ⟨_, padded s, exec_kfin_of_absorb hab, rfl, fun j => stateByte_padded hs j.isLt⟩

/-! ## KSQZ (R83) -/

/-- The state KSQZ has reached when b bytes are squeezed. -/
def squeezedPrefix (s : State) (b : Nat) : State := (squeezeBytes b s).2

theorem squeezedPrefix_succ (s : State) (b : Nat) :
    squeezedPrefix s (b + 1) =
      { refill (squeezedPrefix s b) with pos := (refill (squeezedPrefix s b)).pos + 1 } := by
  rw [squeezedPrefix, squeezeBytes_add]
  rfl

theorem squeezedPrefix_frame (s : State) (b : Nat) :
    squeezedPrefix s b = { s with lanes := (squeezedPrefix s b).lanes, pos := (squeezedPrefix s b).pos } :=
  squeezeBytes_frame b s

/-- Byte b of a run of squeezing is read where the bytes before it have left the sponge. -/
theorem squeezeBytes_getD {n b : Nat} (h : b < n) (s : State) :
    (squeezeBytes n s).1.getD b 0 =
      stateByte (refill (squeezedPrefix s b)).lanes (refill (squeezedPrefix s b)).pos.toNat := by
  induction b generalizing n s with
  | zero =>
    obtain ⟨m, rfl⟩ := Nat.exists_eq_add_of_lt h
    rw [Nat.zero_add]
    rfl
  | succ b ih =>
    obtain ⟨m, rfl⟩ : ∃ m, n = m + 1 := ⟨n - 1, by omega⟩
    exact ih (Nat.lt_of_succ_lt_succ h) _

/-- One byte squeezed, in lanes and positions: the lanes are permuted exactly when the block is used up. -/
theorem squeezedPrefix_step {n b : Nat} {s : State} (hb : b < n) (h0 : 1 ≤ s.arate.toNat)
    (h : s.pos.toNat ≤ s.arate.toNat) :
    let u := squeezedPrefix s b
    let t := squeezedPrefix s (b + 1)
    let x := (squeezeBytes n s).1.getD b 0
    if u.pos.toNat = s.arate.toNat then
      t.lanes = keccakF u.lanes ∧ t.pos.toNat = 1 ∧ x = stateByte t.lanes 0
    else t.lanes = u.lanes ∧ t.pos.toNat = u.pos.toNat + 1 ∧ x = stateByte u.lanes u.pos.toNat := by
  intro u t x
  have ht : t = { refill u with pos := (refill u).pos + 1 } := squeezedPrefix_succ s b
  have hx : x = stateByte (refill u).lanes (refill u).pos.toNat := squeezeBytes_getD hb s
  have ha : u.arate = s.arate := squeezeBytes_arate b s
  have hle : u.pos.toNat ≤ u.arate.toNat := by rw [ha]; exact squeezeBytes_pos_le b s h0 h
  rw [ht, hx, ← ha]
  rcases refill_cases u hle with ⟨hused, e⟩ | ⟨hroom, e⟩
  · rw [if_pos hused, e]
    exact ⟨rfl, rfl, rfl⟩
  · rw [if_neg hroom.ne, e]
    exact ⟨rfl, pos_succ_toNat hroom, rfl⟩

theorem runKsqz_of_squeeze {s : State} (n : Nat) (h : s.phase = .squeeze) :
    runKsqz n s = .ok { squeezedPrefix s n with dout := ofBytes (squeezeBytes n s).1 } :=
  if_pos h

theorem runKsqz_of_absorb {s : State} (n : Nat) (h : s.phase = .absorb) : runKsqz n s = .error .phase :=
  if_neg (by rw [h]; decide)

theorem exec_ksqz_of_squeeze {s : State} (n : Nat) (h : s.phase = .squeeze) :
    exec (.ksqz n) s = .next { squeezedPrefix s n with
      dout := ofBytes (squeezeBytes n s).1, code := .ok, inflight := none } :=
  exec_of_ok (i := .ksqz n) (runKsqz_of_squeeze n h)

/-- Settles O33: DOUT holds the bytes squeezed, each read from the state that the bytes before it lead to. -/
theorem ksqzSqueezesBytesInOrder : Obligations.KsqzSqueezesBytesInOrder := by
  unfold Obligations.KsqzSqueezesBytesInOrder
  refine fun n _ h8 => ⟨?_, fun s => ⟨fun hs hsq => ?_, fun w hw hab => ?_⟩⟩
  · exact commandWord_toNat (by decide) (by omega) (by decide) (by decide)
  · obtain ⟨h0, -, hle, -⟩ := hs
    have hdout {b : Nat} (hb : b < 8) :
        (ofBytes (squeezeBytes n s).1).extractLsb' (8 * b) 8 = (squeezeBytes n s).1.getD b 0 :=
      byteOf_ofBytes _ b hb
    refine ⟨_, fun b => (squeezedPrefix s b).lanes, fun b => (squeezedPrefix s b).pos.toNat,
      exec_ksqz_of_squeeze n hsq, rfl, rfl, fun b hb => ?_, fun b hn hb => ?_, rfl, ?_⟩
    · rw [hdout (by omega)]
      exact squeezedPrefix_step hb h0 hle
    · rw [hdout hb, List.getD_eq_default _ _ (by rw [squeezeBytes_length]; exact hn)]
    · rw [squeezedPrefix_frame]
  · exact exec_of_phase_error hw (runKsqz_of_absorb n hab)

/-! ## Command sequences (R85) -/

/-- KINIT leaves a sponge that has absorbed no data. -/
theorem exec_kinit_absorbs_nil {s : State} (hlo : 1 ≤ s.spRate.toNat) (hhi : s.spRate.toNat ≤ 199) :
    ∃ t, exec .kinit s = .next t ∧ t.phase = .absorb ∧ t.asuffix = s.spSuffix ∧ Absorbed s.spRate.toNat [] t := by
  refine ⟨_, exec_kinit_of_legal hlo hhi, rfl, rfl, rfl, ?_, ?_⟩
  · rw [List.length_nil, Nat.zero_mod]
    rfl
  · rw [List.drop_nil, xorBlock_nil, absorbBlocks, List.length_nil, Nat.zero_div]
    rfl

/-- KABS of a chunk placed in DIN absorbs the chunk. -/
theorem exec_kabs_absorbs {r : Nat} (hr : 0 < r) {c : List Byte} (hc : c.length ≤ 8) {data : List Byte} {s : State}
    (hab : s.phase = .absorb) (hd : Absorbed r data s) :
    ∃ t, exec (.kabs c.length) { s with din := ofBytes c } = .next t ∧ t.phase = .absorb ∧ t.asuffix = s.asuffix ∧
      Absorbed r (data ++ c) t := by
  have hbytes : absorbedPrefix { s with din := ofBytes c } c.length = c.foldl absorbByte { s with din := ofBytes c } :=
    congrArg (List.foldl absorbByte _) (dinBytes_ofBytes s c hc)
  refine ⟨_, exec_kabs_of_absorb c.length (by exact hab), ?_, ?_, ?_⟩
  · rw [absorbedPrefix_frame]
    exact hab
  · rw [absorbedPrefix_frame]
  · rw [hbytes]
    exact Absorbed.append (s := { s with din := ofBytes c }) hr hd c

/-- KABS commands absorb the concatenation of their chunks, however the data is cut. -/
theorem feedChunks_absorbs {r : Nat} (hr : 0 < r) {chunks : List (List Byte)} (h8 : ∀ c ∈ chunks, c.length ≤ 8)
    {data : List Byte} {s : State} (hab : s.phase = .absorb) (hd : Absorbed r data s) :
    ∃ t, feedChunks chunks s = some t ∧ t.phase = .absorb ∧ t.asuffix = s.asuffix ∧
      Absorbed r (data ++ chunks.flatten) t := by
  induction chunks generalizing data s with
  | nil => exact ⟨s, rfl, hab, rfl, by rwa [List.flatten_nil, List.append_nil]⟩
  | cons c rest ih =>
    have ⟨hc, hrest⟩ := List.forall_mem_cons.1 h8
    obtain ⟨u, hexec, huab, husuffix, hud⟩ := exec_kabs_absorbs hr hc hab hd
    obtain ⟨t, hfeed, htab, htsuffix, htd⟩ := ih hrest huab hud
    refine ⟨t, ?_, htab, htsuffix.trans husuffix, ?_⟩
    · rw [feedChunks, hexec, nextState, Option.bind_some, hfeed]
    · rwa [List.flatten_cons, ← List.append_assoc]

/-- KFIN pads and permutes as the source's last block. -/
theorem exec_kfin_absorbs_final {r : Nat} {data : List Byte} {s : State} (hab : s.phase = .absorb)
    (hd : Absorbed r data s) :
    ∃ t, exec .kfin s = .next t ∧ t.phase = .squeeze ∧ t.pos = 0 ∧ t.arate.toNat = r ∧
      t.lanes = absorbFinal r s.asuffix (absorbBlocks r data) (data.drop (data.length / r * r)) := by
  obtain ⟨ha, hp, hl⟩ := hd
  have htail : (data.drop (data.length / r * r)).length = data.length % r := by
    rw [List.length_drop, Nat.mod_eq_sub_div_mul]
  refine ⟨_, exec_kfin_of_absorb hab, rfl, rfl, ha, ?_⟩
  rw [padded, absorbFinal, ha, hp, hl, htail]

/-- KSQZ puts the next n bytes into DOUT, and leaves the sponge where they end. -/
theorem exec_ksqz_squeezes {n : Nat} (hn : n ≤ 8) {s : State} (hsq : s.phase = .squeeze) :
    ∃ t, exec (.ksqz n) s = .next t ∧ t.phase = .squeeze ∧
      (List.range n).map (byteOf t.dout) = (squeezeBytes n s).1 ∧
      ∀ m, (squeezeBytes (n + m) s).1 = (squeezeBytes n s).1 ++ (squeezeBytes m t).1 := by
  refine ⟨_, exec_ksqz_of_squeeze n hsq, ?_, ?_, fun m => ?_⟩
  · rw [squeezedPrefix_frame]
    exact hsq
  · have hbytes := doutBytes_ofBytes (squeezeBytes n s).1 (by rw [squeezeBytes_length]; exact hn)
    rwa [squeezeBytes_length] at hbytes
  · rw [squeezeBytes_add]
    exact congrArg ((squeezeBytes n s).1 ++ ·) (squeezeBytes_congr m rfl rfl rfl)

/-- KSQZ commands squeeze one run of bytes, however it is cut. -/
theorem squeezeCounts_squeezes {counts : List Nat} (h8 : ∀ n ∈ counts, n ≤ 8) {s : State} (hsq : s.phase = .squeeze) :
    ∃ t, squeezeCounts counts s = some ((squeezeBytes counts.sum s).1, t) := by
  induction counts generalizing s with
  | nil => exact ⟨s, rfl⟩
  | cons n rest ih =>
    have ⟨hn, hrest⟩ := List.forall_mem_cons.1 h8
    obtain ⟨u, hexec, husq, hdout, hsplit⟩ := exec_ksqz_squeezes hn hsq
    obtain ⟨t, hlater⟩ := ih hrest husq
    refine ⟨t, ?_⟩
    rw [squeezeCounts, hexec, nextState, Option.bind_some, hlater, Option.map_some, hdout, List.sum_cons, hsplit]

/-- Bytes squeezed from position 0 are those of the source's extractions (R83). -/
theorem squeezeBytes_eq_extractions {r : Nat} (hr : 1 ≤ r) (d : Nat) {s : State} (ha : s.arate.toNat = r)
    (hp : s.pos = 0) : (squeezeBytes d s).1 = (extractions r ((d + r - 1) / r) s.lanes).take d := by
  have hpos : s.pos.toNat = 0 := by rw [hp]; rfl
  cases d with
  | zero => simp [squeezeBytes]
  | succ d =>
    have hk : (d + 1 + r - 1) / r = d / r + 1 := by
      rw [Nat.add_right_comm, Nat.add_sub_cancel, Nat.add_div_right _ hr]
    have hn : d + 1 ≤ r - s.pos.toNat + d / r * r := by
      have := Nat.lt_div_mul_add (a := d) hr
      omega
    rw [squeezeBytes_eq_take hr (d + 1) (d / r) s ha (by omega) hn, hpos, List.drop_zero, hk, extractions]

/-- Settles O34: absorbing keeps "this data is absorbed", KFIN closes it, and squeezing reads the extractions. -/
theorem commandsComputeTheSourceSponge : Obligations.CommandsComputeTheSourceSponge := by
  unfold Obligations.CommandsComputeTheSourceSponge
  intro s r suffix chunks counts hlo hhi hchunks hcounts
  obtain ⟨s₁, hinit, hab₁, hsuffix₁, habsorbed₁⟩ :=
    exec_kinit_absorbs_nil (s := { s with spRate := r, spSuffix := suffix }) hlo hhi
  obtain ⟨s₂, hfeed, hab₂, hsuffix₂, habsorbed₂⟩ :=
    feedChunks_absorbs hlo (fun c hc => (hchunks c hc).2) hab₁ habsorbed₁
  obtain ⟨s₃, hfin, hsq, hpos, harate, hlanes⟩ := exec_kfin_absorbs_final hab₂ habsorbed₂
  obtain ⟨s₄, hsqueeze⟩ := squeezeCounts_squeezes (fun n hn => (hcounts n hn).2) hsq
  refine ⟨s₁, s₂, s₃, s₄, _, hinit, hfeed, hfin, hsqueeze, ?_⟩
  rw [squeezeBytes_eq_extractions hlo _ harate hpos, hlanes, hsuffix₂, hsuffix₁, List.nil_append, sponge]

end Sys2Proof.Machine
end

section
/-! SUPPORT. The field commands: the two shapes FADD, FSUB, FMUL and FINV have, how each ends, and the inverse mod p
(42_field.md R87 to R94). -/

namespace Sys2Proof.Machine

/-! ## Operands (R87) -/

theorem isElement_eq_false_iff (x : Nat) : isElement x = false ↔ P_FIELD ≤ x := by simp [isElement]

theorem fieldBinary_of_elements (f : Nat → Nat → Nat) (d : VReg) {a b : VReg} {s : State} (ha : s.getV a < P_FIELD)
    (hb : s.getV b < P_FIELD) : fieldBinary f d a b s = .ok (s.setV d (f (s.getV a) (s.getV b))) := by
  rcases fieldBinary_cases f d a b s with ⟨-, -, e⟩ | ⟨h, -⟩
  · exact e
  · simp only [isElement_eq_false_iff] at h
    omega

theorem fieldBinary_of_not_element (f : Nat → Nat → Nat) (d : VReg) {a b : VReg} {s : State}
    (h : P_FIELD ≤ s.getV a ∨ P_FIELD ≤ s.getV b) : fieldBinary f d a b s = .error .range := by
  rcases fieldBinary_cases f d a b s with ⟨ha, hb, -⟩ | ⟨-, e⟩
  · rw [isElement_iff] at ha hb
    omega
  · exact e

theorem runFinv_of_element (d : VReg) {a : VReg} {s : State} (h0 : 0 < s.getV a) (h : s.getV a < P_FIELD) :
    runFinv d a s = .ok (s.setV d (finv (s.getV a))) := by
  rcases runFinv_cases d a s with ⟨-, -, e⟩ | ⟨ha, -⟩ | ⟨ha, -⟩
  · exact e
  · rw [isElement_eq_false_iff] at ha
    omega
  · omega

theorem runFinv_of_not_element (d : VReg) {a : VReg} {s : State} (h : P_FIELD ≤ s.getV a) :
    runFinv d a s = .error .range := by
  have hp := P_FIELD_pos
  rcases runFinv_cases d a s with ⟨ha, -, -⟩ | ⟨-, e⟩ | ⟨ha, -⟩
  · rw [isElement_iff] at ha
    omega
  · exact e
  · omega

theorem runFinv_of_zero (d : VReg) {a : VReg} {s : State} (h : s.getV a = 0) : runFinv d a s = .error .invZero := by
  have hp := P_FIELD_pos
  rcases runFinv_cases d a s with ⟨-, h0, -⟩ | ⟨ha, -⟩ | ⟨-, e⟩
  · exact absurd h h0
  · rw [isElement_eq_false_iff] at ha
    omega
  · exact e

/-! ## How a field command ends (R88, R89) -/

theorem getV_setV_element (s : State) (d : VReg) {x : Nat} (hx : x < P_FIELD) : (s.setV d x).getV d = x := by
  rw [State.getV_setV_same, Nat.mod_eq_of_lt (hx.trans P_FIELD_lt)]

/-- Command i completes with OK: V[d] holds x, and nothing else has changed but CODE and BUSY. -/
def CompletesWritingV (i : Instr) (d : VReg) (x : Nat) (s : State) : Prop :=
  ∃ t, exec i s = .next t ∧ t.getV d = x ∧ (∀ j, j ≠ d → t.v[j] = s.v[j]) ∧
    t = { s with v := t.v, code := .ok, inflight := none }

theorem completesWritingV_of_setV {i : Instr} {d : VReg} {x : Nat} {s : State} (hx : x < P_FIELD)
    (h : commandResult i s = .ok (s.setV d x)) : CompletesWritingV i d x s :=
  ⟨_, exec_of_ok h, getV_setV_element s d hx, fun _ hj => s.setV_ne x hj, rfl⟩

/-- FADD, FSUB and FMUL on two field elements, f being their operation. -/
theorem completesWritingV_of_fieldBinary {i : Instr} {f : Nat → Nat → Nat} {d a b : VReg} {s : State}
    (hi : commandResult i s = fieldBinary f d a b s) (hf : ∀ x y, f x y < P_FIELD) (ha : s.getV a < P_FIELD)
    (hb : s.getV b < P_FIELD) : CompletesWritingV i d (f (s.getV a) (s.getV b)) s :=
  completesWritingV_of_setV (hf _ _) (hi.trans (fieldBinary_of_elements f d ha hb))

/-- FADD, FSUB and FMUL with an operand that is no field element. -/
theorem exec_range_of_fieldBinary {i : Instr} {f : Nat → Nat → Nat} {d a b : VReg} {s : State} {w : Word}
    (hi : commandResult i s = fieldBinary f d a b s) (hw : s.inflight = some w)
    (h : P_FIELD ≤ s.getV a ∨ P_FIELD ≤ s.getV b) : exec i s = .next (endsWithError s w .range) :=
  exec_of_error hw (hi.trans (fieldBinary_of_not_element f d h)) (by decide) (by decide)

theorem finv_completesWritingV (d : VReg) {a : VReg} {s : State} (h0 : 0 < s.getV a) (h : s.getV a < P_FIELD) :
    CompletesWritingV (.finv d a) d (finv (s.getV a)) s :=
  completesWritingV_of_setV (finv_lt _) (runFinv_of_element d h0 h)

/-! ## FADD, FSUB, FMUL (R90 to R92) -/

/-- Settles O35: the sum that `fadd` names, on the shape shared by the three binary commands. -/
theorem faddAddsModP : Obligations.FaddAddsModP := by
  unfold Obligations.FaddAddsModP
  refine fun d a b => ⟨commandWord_toNat (by decide) d.isLt a.isLt b.isLt, fun s => ⟨fun ha hb => ?_, fun w hw h => ?_⟩⟩
  · exact completesWritingV_of_fieldBinary (f := fadd) rfl fadd_lt ha hb
  · exact exec_range_of_fieldBinary (f := fadd) rfl hw h

/-- Settles O36: p is added before the subtraction, which changes nothing mod p over the integers. -/
theorem fsubSubtractsModP : Obligations.FsubSubtractsModP := by
  unfold Obligations.FsubSubtractsModP
  refine fun d a b => ⟨commandWord_toNat (by decide) d.isLt a.isLt b.isLt, fun s => ⟨fun ha hb => ?_, fun w hw h => ?_⟩⟩
  · obtain ⟨t, ht, hd, hframe⟩ :=
      completesWritingV_of_fieldBinary (i := .fsub d a b) (f := fsub) rfl fsub_lt ha hb
    exact ⟨t, ht, by rw [hd, fsub_eq_int hb.le], hframe⟩
  · exact exec_range_of_fieldBinary (f := fsub) rfl hw h

/-- Settles O37: the product that `fmul` names, on the shape shared by the three binary commands. -/
theorem fmulMultipliesModP : Obligations.FmulMultipliesModP := by
  unfold Obligations.FmulMultipliesModP
  refine fun d a b => ⟨commandWord_toNat (by decide) d.isLt a.isLt b.isLt, fun s => ⟨fun ha hb => ?_, fun w hw h => ?_⟩⟩
  · exact completesWritingV_of_fieldBinary (f := fmul) rfl fmul_lt ha hb
  · exact exec_range_of_fieldBinary (f := fmul) rfl hw h

/-! ## FINV (R93, R94) -/

/-- Settles O38: square-and-multiply computes the power p - 2, and the two checks exclude each other. -/
theorem finvIsTheFermatPower : Obligations.FinvIsTheFermatPower := by
  unfold Obligations.FinvIsTheFermatPower
  refine fun d a => ⟨commandWord_toNat (b := 0) (by decide) d.isLt a.isLt (by decide), fun s =>
    ⟨fun h0 h => ?_, fun w hw h => ?_, fun w hw h => ?_⟩⟩
  · rw [← finv_eq]
    exact finv_completesWritingV d h0 h
  · exact exec_of_error hw (runFinv_of_not_element d h) (by decide) (by decide)
  · exact exec_of_error hw (runFinv_of_zero d h) (by decide) (by decide)

/-- In the field of p elements a nonzero a has one inverse, and `finv` computes it. -/
theorem mul_mod_eq_one_iff {a b : Nat} (h0 : 0 < a) (ha : a < P_FIELD) (hb : b < P_FIELD) :
    a * b % P_FIELD = 1 ↔ b = finv a := by
  have := P_FIELD_fact
  have hne : (a : F) ≠ 0 := mt (cast_eq_zero ha).1 h0.ne'
  calc a * b % P_FIELD = 1
      ↔ ((fmul a b : Nat) : F) = (1 : Nat) := (cast_inj (fmul_lt a b) (by decide)).symm
    _ ↔ (b : F) = (a : F)⁻¹ := by rw [cast_fmul, Nat.cast_one, mul_comm, mul_eq_one_iff_eq_inv₀ hne]
    _ ↔ b = finv a := by rw [← cast_finv, cast_inj hb (finv_lt a)]

/-- Settles O39: FINV writes `finv a`, the one inverse of a because p is prime. -/
theorem finvGivesTheUniqueInverse : Obligations.FinvGivesTheUniqueInverse := by
  unfold Obligations.FinvGivesTheUniqueInverse
  intro d a s h0 h
  obtain ⟨t, ht, hd, -, -⟩ := finv_completesWritingV d h0 h
  exact ⟨t, ht, fun b hb => by rw [hd, mul_mod_eq_one_iff h0 h hb]⟩

/-! ## Results are field elements (R88) -/

/-- A result that is either a field element written to V[d] or an error other than OK. -/
def WritesElement (s : State) (d : VReg) (r : Except ResultCode State) : Prop :=
  (∃ x, x < P_FIELD ∧ r = .ok (s.setV d x)) ∨ ∃ c, c ≠ .ok ∧ r = .error c

theorem fieldBinary_writesElement {f : Nat → Nat → Nat} (hf : ∀ x y, f x y < P_FIELD) (d a b : VReg) (s : State) :
    WritesElement s d (fieldBinary f d a b s) := by
  rcases fieldBinary_cases f d a b s with ⟨-, -, e⟩ | ⟨-, e⟩
  · exact .inl ⟨_, hf _ _, e⟩
  · exact .inr ⟨.range, by decide, e⟩

theorem runFinv_writesElement (d a : VReg) (s : State) : WritesElement s d (runFinv d a s) := by
  rcases runFinv_cases d a s with ⟨-, -, e⟩ | ⟨-, e⟩ | ⟨-, e⟩
  · exact .inl ⟨_, finv_lt _, e⟩
  · exact .inr ⟨.range, by decide, e⟩
  · exact .inr ⟨.invZero, by decide, e⟩

/-- A command with such a result that reports OK has written an element: an error would stand in CODE. -/
theorem WritesElement.getV_lt {i : Instr} {d : VReg} {s t : State} (hr : WritesElement s d (commandResult i s))
    (ht : exec i s = .next t) (hcode : t.code = .ok) : t.getV d < P_FIELD := by
  rw [exec_eq_finish] at ht
  rcases hr with ⟨x, hx, e⟩ | ⟨c, hc, e⟩ <;> rw [e] at ht <;> cases ht
  · rw [State.getV_complete, getV_setV_element s d hx]
    exact hx
  · exact absurd hcode hc

/-- Settles O40: each of the four commands writes an element or reports an error. -/
theorem fieldResultsAreElements : Obligations.FieldResultsAreElements := by
  unfold Obligations.FieldResultsAreElements
  rintro i d s t (⟨a, rfl⟩ | ⟨a, b, rfl | rfl | rfl⟩) ht hcode
  · exact (runFinv_writesElement d a s).getV_lt (i := .finv d a) ht hcode
  · exact (fieldBinary_writesElement fadd_lt d a b s).getV_lt (i := .fadd d a b) ht hcode
  · exact (fieldBinary_writesElement fsub_lt d a b s).getV_lt (i := .fsub d a b) ht hcode
  · exact (fieldBinary_writesElement fmul_lt d a b s).getV_lt (i := .fmul d a b) ht hcode

end Sys2Proof.Machine
end

section
/-! SUPPORT. The point commands: the group law over the integers mod p, its closure on the curve, the check of a point
operand, and how PADD and PDBL end (43_point.md R95 to R100). -/

namespace Sys2Proof.Machine

/-! ## Point operands (R97) -/

theorem Point.inRange_aff_eq_false (x y : Nat) : (Point.aff x y).inRange = false ↔ P_FIELD ≤ x ∨ P_FIELD ≤ y := by
  rw [← Bool.not_eq_true, Point.inRange_aff]
  omega

/-- Settles O46: Inf is in range, and any other point has its coordinates checked. -/
theorem pointRangeCheck : Obligations.PointRangeCheck := by
  unfold Obligations.PointRangeCheck
  intro s j
  cases h : s.inf[j] with
  | true => simp [getP_of_inf h, Point.inRange]
  | false =>
    rw [getP_of_not_inf h, Point.inRange_aff_eq_false]
    exact (and_iff_right rfl).symm

/-! ## The group law over the integers (R95) -/

/-- A formula over the integers mod p, for a field element, is the same formula in the field of p elements. -/
theorem eq_emod_iff_cast {n : Nat} (hn : n < P_FIELD) (z : Int) : (n : Int) = z % P_FIELD ↔ (n : F) = (z : F) := by
  rw [← Int.cast_natCast (R := F) n, ZMod.intCast_eq_intCast_iff, Int.ModEq,
    Int.emod_eq_of_lt (Int.natCast_nonneg n) (Int.ofNat_lt.2 hn)]

theorem fsub_eq_zero_iff {a b : Nat} (ha : a < P_FIELD) (hb : b < P_FIELD) : fsub a b = 0 ↔ a = b := by
  rw [← cast_eq_zero (fsub_lt a b), cast_fsub hb.le, sub_eq_zero, cast_inj ha hb]

/-- A slope is its numerator times the power p - 2 of its denominator. -/
theorem slope_eq_int (num den : Nat) :
    (fmul num (finv den) : Int) = (num : Int) * (den ^ (P_FIELD - 2) : Nat) % P_FIELD := by
  rw [eq_emod_iff_cast (fmul_lt _ _), cast_fmul, finv_eq, ZMod.natCast_mod, Int.cast_mul, Int.cast_natCast,
    Int.cast_natCast]

theorem tangentSlope_eq_int (x y : Nat) :
    (fmul (fmul 3 (fmul x x)) (finv (fadd y y)) : Int) =
      3 * (x : Int) ^ 2 * ((2 * y % P_FIELD) ^ (P_FIELD - 2) : Nat) % P_FIELD := by
  have hnum : (fmul 3 (fmul x x) : Int) = 3 * (x : Int) ^ 2 % P_FIELD := by
    rw [eq_emod_iff_cast (fmul_lt _ _), cast_fmul, cast_fmul]
    push_cast
    ring
  rw [slope_eq_int, hnum, fadd, ← two_mul, Int.mul_emod, Int.emod_emod_of_dvd _ dvd_rfl, ← Int.mul_emod]

theorem chordSlope_eq_int {x1 y1 : Nat} (x2 y2 : Nat) (hx : x1 < P_FIELD) (hy : y1 < P_FIELD) :
    (fmul (fsub y2 y1) (finv (fsub x2 x1)) : Int) =
      ((y2 : Int) - y1) * (((((x2 : Int) - x1) % P_FIELD).toNat ^ (P_FIELD - 2) : Nat) : Int) % P_FIELD := by
  rw [slope_eq_int, fsub_eq_int hy.le, ← fsub_eq_int hx.le, Int.toNat_natCast, Int.mul_emod,
    Int.emod_emod_of_dvd _ dvd_rfl, ← Int.mul_emod]

/-- The third point of the line of slope m. -/
theorem chord_eq_int (m : Nat) {x1 y1 x2 : Nat} (hx1 : x1 < P_FIELD) (hy1 : y1 < P_FIELD) (hx2 : x2 < P_FIELD) :
    ∃ x3 y3 : Nat, chord m x1 y1 x2 = .aff x3 y3 ∧ (x3 : Int) = ((m : Int) ^ 2 - x1 - x2) % P_FIELD ∧
      (y3 : Int) = ((m : Int) * ((x1 : Int) - x3) - y1) % P_FIELD := by
  refine ⟨_, _, rfl, ?_, ?_⟩
  · rw [eq_emod_iff_cast (fsub_lt _ _), cast_fsub hx2.le, cast_fsub hx1.le, cast_fmul]
    push_cast
    ring
  · rw [eq_emod_iff_cast (fsub_lt _ _), cast_fsub hy1.le, cast_fmul, cast_fsub (fsub_lt _ _).le]
    push_cast
    ring

/-- Settles O42: one equation of `ecadd` per case, and the formulas of its slope and of the line's third point. -/
theorem ecaddIsTheGroupLaw : Obligations.EcaddIsTheGroupLaw := by
  unfold Obligations.EcaddIsTheGroupLaw
  refine ⟨ecadd_inf_left, ecadd_inf_right, fun x1 y1 x2 y2 hx1 hy1 hx2 _ => ⟨?_, ?_, ?_⟩⟩
  · rintro rfl hs
    exact ecadd_opposite hs
  · rintro rfl hs hy
    exact ecadd_zeroDenominator hs hy ((fsub_eq_zero_iff hx1 hx1).2 rfl)
  · intro h
    by_cases hx : x1 = x2
    · subst hx
      obtain ⟨rfl, hs⟩ := h.resolve_left (absurd rfl)
      obtain ⟨x3, y3, hc, h3⟩ := chord_eq_int (fmul (fmul 3 (fmul x1 x1)) (finv (fadd y1 y1))) hx1 hy1 hx1
      exact ⟨_, x3, y3, (ecadd_tangent hs).trans (congrArg _ hc), fun _ => tangentSlope_eq_int x1 y1, absurd rfl, h3⟩
    · have hd : fsub x2 x1 ≠ 0 := fun h0 => hx ((fsub_eq_zero_iff hx2 hx1).1 h0).symm
      obtain ⟨x3, y3, hc, h3⟩ := chord_eq_int (fmul (fsub y2 y1) (finv (fsub x2 x1))) hx1 hy1 hx2
      exact ⟨_, x3, y3, (ecadd_chord hx hd).trans (congrArg _ hc), (absurd · hx),
        fun _ => chordSlope_eq_int x2 y2 hx1 hy1, h3⟩

/-! ## The group law on the curve (R96, R98) -/

theorem ecadd_onCurve {q q' : Point} (hq : q.OnCurve) (hq' : q'.OnCurve) : ∃ r, ecadd q q' = .ok r ∧ r.OnCurve := by
  have := P_FIELD_fact
  obtain ⟨e, he⟩ := hq.represents
  obtain ⟨e', he'⟩ := hq'.represents
  obtain ⟨r, hr, hrep⟩ := ecadd_represents he he'
  exact ⟨r, hr, hrep.onCurve⟩

theorem cast_y_ne_zero {x y : Nat} (h : (Point.aff x y).OnCurve) : (y : F) ≠ 0 := by
  obtain ⟨-, -, he⟩ := onCurve_iff.1 h
  exact y_ne_zero he

/-- The denominator of a doubling on the curve: p is odd, so y + y vanishes with y alone. -/
theorem double_y_ne_zero {x y : Nat} (h : (Point.aff x y).OnCurve) : (y + y) % P_FIELD ≠ 0 := by
  have := P_FIELD_fact
  have h2 : ((y + y : Nat) : F) ≠ 0 := by
    rw [← two_mul, Nat.cast_mul]
    exact mul_ne_zero two_ne_zero_F (cast_y_ne_zero h)
  exact fun h0 => h2 (by rw [← ZMod.natCast_mod, h0, Nat.cast_zero])

/-- Settles O43: the addition is the group's, and a point of the curve has y ≠ 0 because -7 is not a cube. -/
theorem ecaddStaysOnTheCurve : Obligations.EcaddStaysOnTheCurve := by
  unfold Obligations.EcaddStaysOnTheCurve
  refine ⟨fun _ _ => ecadd_onCurve, fun x y h => ⟨?_, ?_⟩⟩
  · rintro rfl
    exact cast_y_ne_zero h Nat.cast_zero
  · rw [ecadd_tangent (double_y_ne_zero h)]
    nofun

/-! ## How a point command ends (R99 to R101) -/

/-- Command i completes with OK: P[d] is the point r, zeros standing for the coordinates of Inf, and nothing else has
changed but CODE and BUSY. -/
def CompletesWritingP (i : Instr) (d : PReg) (r : Point) (s : State) : Prop :=
  ∃ t, exec i s = .next t ∧ t.getP d = r ∧ (r = .inf → t.getV (xReg d) = 0 ∧ t.getV (yReg d) = 0) ∧
    (∀ j : VReg, j.val / 2 ≠ d.val → t.v[j] = s.v[j]) ∧ (∀ j, j ≠ d → t.inf[j] = s.inf[j]) ∧
    t = { s with v := t.v, inf := t.inf, code := .ok, inflight := none }

theorem completesWritingP_of_setP {i : Instr} {d : PReg} {r : Point} {s : State} (hr : r.Fits)
    (h : commandResult i s = .ok (s.setP d r)) : CompletesWritingP i d r s := by
  refine ⟨_, exec_of_ok h, s.getP_setP d hr, ?_, fun _ hj => s.setP_v_ne d r hj, fun _ hj => s.setP_inf_ne d r hj, rfl⟩
  rintro rfl
  exact ⟨s.getV_setP_x d hr, s.getV_setP_y d hr⟩

theorem runPadd_of_inRange (d : PReg) {a b : PReg} {s : State} (ha : (s.getP a).inRange = true)
    (hb : (s.getP b).inRange = true) : runPadd d a b s = writeSum d (s.getP a) (s.getP b) s := by
  rcases runPadd_cases d a b s with ⟨-, -, e⟩ | ⟨h, -⟩
  · exact e
  · simp [ha, hb] at h

theorem runPadd_of_not_inRange (d : PReg) {a b : PReg} {s : State}
    (h : (s.getP a).inRange = false ∨ (s.getP b).inRange = false) : runPadd d a b s = .error .range := by
  rcases runPadd_cases d a b s with ⟨ha, hb, -⟩ | ⟨-, e⟩
  · simp [ha, hb] at h
  · exact e

/-- Settles O44: the sum of two points in range is in range, so it reads back from P[D]. -/
theorem paddAddsPoints : Obligations.PaddAddsPoints := by
  unfold Obligations.PaddAddsPoints
  refine fun d a b => ⟨commandWord_toNat (by decide) (by omega) (by omega) (by omega), fun s =>
    ⟨fun r ha hb hr => ?_, fun w hw h => ?_, fun w c hw ha hb hc => ?_⟩⟩
  · refine completesWritingP_of_setP (i := .padd d a b) (Point.fits_of_inRange (ecadd_inRange ha hb hr)) ?_
    rw [commandResult, runPadd_of_inRange d ha hb, writeSum, hr]
  · exact exec_of_error hw (runPadd_of_not_inRange d h) (by decide) (by decide)
  · refine exec_of_error hw ?_ (by decide) (by decide)
    rw [commandResult, runPadd_of_inRange d ha hb, writeSum, hc, ecadd_error hc]

/-- Settles O45: doubling a point in range never fails, and the double is in range. -/
theorem pdblDoublesPoints : Obligations.PdblDoublesPoints := by
  unfold Obligations.PdblDoublesPoints
  refine fun d a => ⟨commandWord_toNat (b := 0) (by decide) (by omega) (by omega) (by decide), fun s =>
    ⟨fun ha => ?_, fun w hw h => ?_⟩⟩
  · rcases runPdbl_cases d a s with ⟨-, r, hr, e⟩ | ⟨hn, -⟩
    · obtain ⟨t, ht⟩ :=
        completesWritingP_of_setP (i := .pdbl d a) (Point.fits_of_inRange (ecadd_inRange ha ha hr)) e
      exact ⟨t, r, hr, ht⟩
    · cases ha.symm.trans hn
  · rcases runPdbl_cases d a s with ⟨ha, -⟩ | ⟨-, e⟩
    · cases ha.symm.trans h
    · exact exec_of_error hw e (by decide) (by decide)

end Sys2Proof.Machine
end

section
/-! SUPPORT. Scalar multiplication of the base point: the multiples of G, how PMULG ends, and that no command raises
INVARIANT (44_scalar_mult.md R102 to R105, 95_test_vectors.md T-M18). -/

namespace Sys2Proof.Machine

/-! ## The multiples of the base point (R103, R104) -/

theorem N_ORDER_lt : N_ORDER < 2 ^ 256 := by decide

theorem scalarValid_iff (k : Nat) : scalarValid k = true ↔ 1 ≤ k ∧ k < N_ORDER := by simp [scalarValid]

theorem scalarValid_eq_false_iff (k : Nat) : scalarValid k = false ↔ k = 0 ∨ N_ORDER ≤ k := by
  rw [← Bool.not_eq_true, scalarValid_iff]
  omega

/-- The base point has order n, so none of its multiples by 1 to n - 1 is Inf. -/
theorem scalarMulG_eq_multiple {k : Nat} (h1 : 1 ≤ k) (hk : k < N_ORDER) :
    ∃ x y, scalarMulG k = .ok (.aff x y) ∧ repeatedSum k = .ok (.aff x y) ∧ (Point.aff x y).OnCurve := by
  have := P_FIELD_fact
  obtain ⟨g, hg⟩ := basePoint_onCurve.represents
  obtain ⟨q, hq, hrep⟩ := scalarMulG_represents hg (hk.trans N_ORDER_lt)
  obtain ⟨q', hq', hrep'⟩ := repeatedSum_represents hg k
  obtain rfl := hrep.inj hrep'
  have hne : k • g ≠ 0 :=
    nsmul_ne_zero_of_lt_addOrderOf (Nat.one_le_iff_ne_zero.1 h1) (by rwa [addOrderOf_basePoint hg])
  cases q with
  | inf => exact absurd hrep hne
  | aff x y => exact ⟨x, y, hq, hq', hrep.onCurve⟩

/-! ## PMULG (R102, R105) -/

theorem runPmulg_of_valid (d : PReg) {a : VReg} {s : State} (h1 : 1 ≤ s.getV a) (hk : s.getV a < N_ORDER) :
    runPmulg d a s = writeMultiple d (scalarMulG (s.getV a)) s := by
  rw [runPmulg, if_pos ((scalarValid_iff _).2 ⟨h1, hk⟩)]

theorem runPmulg_of_not_valid (d : PReg) {a : VReg} {s : State} (h : s.getV a = 0 ∨ N_ORDER ≤ s.getV a) :
    runPmulg d a s = .error .scalar := by
  rw [runPmulg, (scalarValid_eq_false_iff _).2 h, if_neg Bool.false_ne_true]

/-- The end of a command with INVARIANT: the report, and FATAL. -/
theorem State.complete_invariant {s : State} {w : Word} (hw : s.inflight = some w) :
    s.complete .invariant = { endsWithError s w .invariant with fatal := true } := by
  have hfatal : fatalAfter .invariant s.fatal = true := (fatalAfter_eq_true _ _).2 (.inr rfl)
  simp [State.complete, endsWithError, hfatal, stickyAfter_error, State.commandWord_of_inflight hw]

/-- Settles O47: the check of the scalar, and the end of the command for each result `writeMultiple` distinguishes. -/
theorem pmulgFollowsItsPseudocode : Obligations.PmulgFollowsItsPseudocode := by
  unfold Obligations.PmulgFollowsItsPseudocode
  refine fun d a => ⟨commandWord_toNat (b := 0) (by decide) (by omega) a.isLt (by decide), fun s w hw =>
    ⟨fun h => ?scalar, fun h1 hk => ?valid, fun x y hx hy => ?point, ?invZero, ?invariant⟩⟩
  case scalar => exact exec_of_error hw (runPmulg_of_not_valid d h) (by decide) (by decide)
  case valid => rw [exec_eq_finish, commandResult, runPmulg_of_valid d h1 hk]
  case point =>
    have hfits : (Point.aff x y).Fits := ⟨hx, hy⟩
    exact ⟨(s.setP d (.aff x y)).complete .ok, rfl, s.getV_setP_x d hfits, s.getV_setP_y d hfits,
      s.setP_inf_same d _, fun _ hi => s.setP_v_ne d _ hi, fun _ hj => s.setP_inf_ne d _ hj,
      State.complete_ok _⟩
  case invZero => rw [writeMultiple, State.finish_error, State.complete_error hw (by decide) (by decide)]
  case invariant => rw [writeMultiple, State.finish_error, State.complete_invariant hw]

/-- Settles O48: the loop and the repeated sum are one multiple of G, and PMULG writes it because it is not Inf. -/
theorem pmulgGivesTheMultipleOfG : Obligations.PmulgGivesTheMultipleOfG := by
  unfold Obligations.PmulgGivesTheMultipleOfG
  intro k h1 hk
  obtain ⟨x, y, hmul, hsum, hcurve⟩ := scalarMulG_eq_multiple h1 hk
  refine ⟨x, y, hmul, hsum, hcurve, fun d a s hs => ?_⟩
  obtain ⟨hx, hy, -⟩ := hcurve
  have hfits : (Point.aff x y).Fits := Point.fits_of_inRange ((Point.inRange_aff x y).2 ⟨hx, hy⟩)
  have hrun : commandResult (.pmulg d a) s = .ok (s.setP d (.aff x y)) := by
    rw [commandResult, runPmulg_of_valid d (by rwa [hs]) (by rwa [hs]), hs, hmul, writeMultiple]
  exact ⟨_, exec_of_ok hrun, rfl, s.getP_setP d hfits⟩

/-! ## No command raises INVARIANT (R104) -/

/-- A command whose pseudocode is one check raises the code of that check. -/
theorem error_of_check {b : Prop} [Decidable b] {t : State} {c c' : ResultCode}
    (h : (if b then .ok t else .error c' : Except ResultCode State) = .error c) : c = c' := by
  split at h
  · cases h
  · exact (Except.error.inj h).symm

theorem fieldBinary_error {f : Nat → Nat → Nat} {d a b : VReg} {s : State} {c : ResultCode}
    (h : fieldBinary f d a b s = .error c) : c = .range := by
  rcases fieldBinary_cases f d a b s with ⟨-, -, e⟩ | ⟨-, e⟩ <;> cases e.symm.trans h
  rfl

theorem runFinv_error {d a : VReg} {s : State} {c : ResultCode} (h : runFinv d a s = .error c) :
    c = .range ∨ c = .invZero := by
  rcases runFinv_cases d a s with ⟨-, -, e⟩ | ⟨-, e⟩ | ⟨-, e⟩ <;> cases e.symm.trans h
  · exact .inl rfl
  · exact .inr rfl

theorem runPadd_error {d a b : PReg} {s : State} {c : ResultCode} (h : runPadd d a b s = .error c) :
    c = .range ∨ c = .invZero := by
  rcases runPadd_cases d a b s with ⟨-, -, e⟩ | ⟨-, e⟩
  · rcases writeSum_cases d (s.getP a) (s.getP b) s with ⟨r, -, e'⟩ | ⟨-, e'⟩ <;> cases (e.trans e').symm.trans h
    exact .inr rfl
  · cases e.symm.trans h
    exact .inl rfl

theorem runPdbl_error {d a : PReg} {s : State} {c : ResultCode} (h : runPdbl d a s = .error c) : c = .range := by
  rcases runPdbl_cases d a s with ⟨-, r, -, e⟩ | ⟨-, e⟩ <;> cases e.symm.trans h
  rfl

/-- A valid scalar gives a point, so SCALAR is the only error left to PMULG. -/
theorem runPmulg_error {d : PReg} {a : VReg} {s : State} {c : ResultCode} (h : runPmulg d a s = .error c) :
    c = .scalar := by
  cases hv : scalarValid (s.getV a) with
  | false =>
    rw [runPmulg_of_not_valid d ((scalarValid_eq_false_iff _).1 hv)] at h
    exact (Except.error.inj h).symm
  | true =>
    obtain ⟨h1, hk⟩ := (scalarValid_iff _).1 hv
    obtain ⟨x, y, hmul, -⟩ := scalarMulG_eq_multiple h1 hk
    rw [runPmulg_of_valid d h1 hk, hmul, writeMultiple] at h
    cases h

theorem commandResult_ne_invariant (i : Instr) (s : State) : commandResult i s ≠ .error .invariant := by
  intro h
  cases i with
  | kinit => cases error_of_check h
  | kabs n => cases error_of_check h
  | kfin => cases error_of_check h
  | ksqz n => cases error_of_check h
  | kperm => cases h
  | fadd d a b => cases fieldBinary_error h
  | fsub d a b => cases fieldBinary_error h
  | fmul d a b => cases fieldBinary_error h
  | finv d a => rcases runFinv_error h with e | e <;> cases e
  | padd d a b => rcases runPadd_error h with e | e <;> cases e
  | pdbl d a => cases runPdbl_error h
  | pmulg d a => cases runPmulg_error h

/-! ## FATAL is never set -/

theorem State.complete_not_fatal {s : State} {c : ResultCode} (hs : s.fatal = false) (hc : c ≠ .invariant) :
    (s.complete c).fatal = false := by
  rw [State.complete_fatal, ← Bool.not_eq_true, fatalAfter_eq_true, hs]
  simp [hc]

theorem exec_not_fatal {i : Instr} {s t : State} (hs : s.fatal = false) (h : exec i s = .next t) :
    t.fatal = false := by
  rcases exec_cases i s with ⟨u, hu, e⟩ | ⟨c, hc, e⟩ <;> cases e.symm.trans h
  · obtain ⟨-, hfatal, -⟩ := (commandResult_frame hu).fields
    exact State.complete_not_fatal (hfatal.trans hs) (by decide)
  · refine State.complete_not_fatal hs ?_
    rintro rfl
    exact commandResult_ne_invariant i s hc

theorem engineStep_not_fatal {s t : State} (hs : s.fatal = false) (h : engineStep s = .next t) :
    t.fatal = false := by
  rcases engineStep_cases s with ⟨-, e⟩ | ⟨w, -, ⟨-, e⟩ | ⟨-, -, e⟩ | ⟨-, i, -, e⟩⟩
  · cases e.symm.trans h
    exact hs
  · cases e.symm.trans h
    exact State.complete_not_fatal hs (by decide)
  · cases e.symm.trans h
    exact State.complete_not_fatal hs (by decide)
  · exact exec_not_fatal hs (e.symm.trans h)

theorem ctrlWrite_not_fatal {s : State} (hs : s.fatal = false) (v : Word) : (ctrlWrite s v).fatal = false := by
  unfold ctrlWrite
  split
  · rfl
  · split
    · exact hs
    · exact hs

theorem writeReg_not_fatal {s : State} (hs : s.fatal = false) (r : HostReg) (v : Word) :
    (writeReg s r v).fatal = false := by
  cases r with
  | ctrl => exact ctrlWrite_not_fatal hs v
  | _ => exact hs

theorem hostRead_not_fatal {s t : State} {a : Addr} (hs : s.fatal = false) (h : hostRead s a = .next t) :
    t.fatal = false := by
  by_cases ha : aligned a = true
  · obtain ⟨w, d, e⟩ := hostRead_aligned s ha
    cases e.symm.trans h
    exact hs
  · rw [hostRead, if_neg ha] at h
    cases h

theorem hostWrite_not_fatal {s t : State} {a : Addr} {v : Word} (hs : s.fatal = false)
    (h : hostWrite s a v = .next t) : t.fatal = false := by
  by_cases ha : aligned a = true
  · rcases hostWrite_aligned s v ha with e | e <;> cases e.symm.trans h
    · exact hs
    · exact writeReg_not_fatal hs _ v
  · rw [hostWrite, if_neg ha] at h
    cases h

theorem handle_not_fatal {s t : State} {e : Event} (hs : s.fatal = false) (h : handle s e = .next t) :
    t.fatal = false := by
  cases e with
  | hostRead a => exact hostRead_not_fatal hs h
  | hostWrite a v => exact hostWrite_not_fatal hs h
  | complete => exact engineStep_not_fatal hs h
  | resetInput =>
    cases h
    rfl

/-- Settles O49: only INVARIANT sets FATAL, and no command raises it because G has order n. -/
theorem fatalIsNeverSet : Obligations.FatalIsNeverSet := by
  unfold Obligations.FatalIsNeverSet
  intro s t hs h
  cases he : s.events with
  | nil => exact engineStep_not_fatal hs ((step_nil he).symm.trans h)
  | cons e rest => exact handle_not_fatal (s := { s with events := rest }) hs ((step_cons he).symm.trans h)

end Sys2Proof.Machine
end

section
/-! SUPPORT. How a word in flight ends, what a completion records, and what clears FATAL (60_exceptions.md R107 to R112). -/

namespace Sys2Proof.Machine

/-! ## A step is its first event (R114, R121) -/

theorem engineStep_idle {s : State} (h : s.inflight = none) : engineStep s = .next s := by
  rw [engineStep, h]

/-- Settles O7: the step is the handling of that event; the engine with nothing in flight does nothing. -/
theorem stepTakesTheFirstEvent : Obligations.StepTakesTheFirstEvent := by
  unfold Obligations.StepTakesTheFirstEvent
  intro s rest
  refine ⟨fun a he => step_cons he, fun a v he => step_cons he, step_cons, fun he hs => ?_, fun he hs => ?_⟩
  · exact (step_cons he).trans (engineStep_idle (s := { s with events := rest }) hs)
  · exact (step_nil he).trans (engineStep_idle hs)

/-! ## With FATAL set (R111) -/

theorem engineStep_fatal {s : State} {w : Word} (hw : s.inflight = some w) (hf : s.fatal = true) :
    engineStep s = .next (endsWithError s w .halted) := by
  rw [engineStep, hw, ← State.complete_error hw (by decide) (by decide)]
  exact if_pos hf

/-- Settles O12: FATAL is looked at before the word. -/
theorem fatalHaltsEveryCommand : Obligations.FatalHaltsEveryCommand := by
  unfold Obligations.FatalHaltsEveryCommand
  intro s w rest hw hf he
  exact (step_cons he).trans (engineStep_fatal (s := { s with events := rest }) hw hf)

/-! ## A completion and its code (R108, R109) -/

/-- The outcome completes the command in flight in s with some code: OK after writes of engine-written registers
alone, an error with no write before it. -/
def State.CompletesTo (s : State) (o : Host.Outcome State Fault Refusal) : Prop :=
  ∃ u c, s.EngineFrame u ∧ (c ≠ .ok → u = s) ∧ o = .next (u.complete c)

theorem State.complete_completesTo (s : State) (c : ResultCode) : s.CompletesTo (.next (s.complete c)) :=
  ⟨s, c, rfl, fun _ => rfl, rfl⟩

theorem exec_completesTo (i : Instr) (s : State) : s.CompletesTo (exec i s) := by
  rcases exec_cases i s with ⟨u, hu, e⟩ | ⟨c, -, e⟩ <;> rw [e]
  · exact ⟨u, .ok, commandResult_frame hu, fun h => absurd rfl h, rfl⟩
  · exact s.complete_completesTo c

theorem engineStep_completesTo {s : State} {w : Word} (hw : s.inflight = some w) : s.CompletesTo (engineStep s) := by
  rcases engineStep_cases s with ⟨h, -⟩ | ⟨w', -, ⟨-, e⟩ | ⟨-, -, e⟩ | ⟨-, i, -, e⟩⟩
  · cases h.symm.trans hw
  · rw [e]; exact s.complete_completesTo .halted
  · rw [e]; exact s.complete_completesTo .illegal
  · rw [e]; exact exec_completesTo i s

theorem fatalAfter_of_ne {c : ResultCode} (h : c ≠ .invariant) (b : Bool) : fatalAfter c b = b := by
  rw [Bool.eq_iff_iff, fatalAfter_eq_true, or_iff_left h]

/-- The error record after a completion with the code c, once for every command. -/
theorem State.EngineFrame.complete_record {s u : State} {w : Word} (h : s.EngineFrame u) (hw : s.inflight = some w)
    (c : ResultCode) :
    (c = .ok → (u.complete c).sticky = s.sticky ∧ (u.complete c).errcmd = s.errcmd) ∧
      (c ≠ .ok → (u.complete c).sticky = true ∧ (u.complete c).errcmd = w) ∧
      (c = .invariant → (u.complete c).fatal = true) ∧ (c ≠ .invariant → (u.complete c).fatal = s.fatal) := by
  obtain ⟨-, hfatal, hsticky, -, -, herrcmd, -, -, hinflight, -⟩ := h.fields
  rw [State.complete_sticky, State.complete_errcmd, State.complete_fatal, hfatal, hsticky, herrcmd]
  refine ⟨?ok, fun hc => ?error, ?invariant, fun hc => fatalAfter_of_ne hc _⟩
  case ok =>
    rintro rfl
    exact ⟨stickyAfter_ok _, if_pos rfl⟩
  case error =>
    rw [if_neg hc]
    exact ⟨stickyAfter_error hc _, State.commandWord_of_inflight (hinflight.trans hw)⟩
  case invariant =>
    rintro rfl
    exact (fatalAfter_eq_true _ _).2 (.inr rfl)

/-- Settles O9: the step completes with some code, and the record of a completion is read off from that code. -/
theorem completionRecordsTheCode : Obligations.CompletionRecordsTheCode := by
  unfold Obligations.CompletionRecordsTheCode
  constructor
  · intro s w rest hw he
    obtain ⟨u, c, hframe, -, e⟩ := engineStep_completesTo (s := { s with events := rest }) hw
    obtain ⟨hbusy, -, -, -, -, hcode, -⟩ := statusFields (u.complete c)
    exact ⟨_, c, (step_cons he).trans e, rfl, hcode, hbusy, hframe.complete_record hw c⟩
  · intro i s
    obtain ⟨u, c, -, -, e⟩ := exec_completesTo i s
    exact ⟨_, e⟩

/-- A completion with an error writes the fields of the report and FATAL. -/
theorem State.complete_eq_report {s : State} {w : Word} {c : ResultCode} (hw : s.inflight = some w) (hc : c ≠ .ok) :
    s.complete c = { endsWithError s w c with fatal := (s.complete c).fatal } := by
  simp [State.complete, endsWithError, stickyAfter_error hc, hc, State.commandWord_of_inflight hw]

theorem State.CompletesTo.eq_report {s t : State} {w : Word} (h : s.CompletesTo (.next t)) (hw : s.inflight = some w)
    (hc : t.code ≠ .ok) : t = { endsWithError s w t.code with fatal := t.fatal } := by
  obtain ⟨u, c, -, herror, e⟩ := h
  cases e
  rw [herror hc]
  exact State.complete_eq_report hw hc

/-- Settles O10: an error completes the state as it was before the command. -/
theorem errorWritesOnlyTheReport : Obligations.ErrorWritesOnlyTheReport := by
  unfold Obligations.ErrorWritesOnlyTheReport
  constructor
  · intro s t w rest hw he h hc
    have hcompletes := engineStep_completesTo (s := { s with events := rest }) hw
    rw [show engineStep { s with events := rest } = .next t from (step_cons he).symm.trans h] at hcompletes
    exact hcompletes.eq_report hw hc
  · intro i s t w hw h hc
    exact (h ▸ exec_completesTo i s).eq_report hw hc

/-! ## The codes of a command (R107) -/

theorem ok_mem_commandCodes (i : Instr) : .ok ∈ commandCodes i := by
  cases i <;> exact List.mem_cons_self

/-- Behind OK, `commandCodes` lists the errors the pseudocode raises. -/
theorem commandResult_error_mem {i : Instr} {s : State} {c : ResultCode} (h : commandResult i s = .error c) :
    c ∈ (commandCodes i).tail := by
  cases i with
  | kinit | kabs n | kfin | ksqz n => exact List.mem_singleton.2 (error_of_check h)
  | kperm => cases h
  | fadd d a b | fsub d a b | fmul d a b => exact List.mem_singleton.2 (fieldBinary_error h)
  | finv d a => exact List.mem_pair.2 (runFinv_error h)
  | padd d a b => exact List.mem_pair.2 (runPadd_error h)
  | pdbl d a => exact List.mem_singleton.2 (runPdbl_error h)
  | pmulg d a => exact runPmulg_error h ▸ List.mem_cons_self

/-- Settles O11: a success completes with OK, a failure with the code its pseudocode raises. -/
theorem commandRaisesItsOwnCodes : Obligations.CommandRaisesItsOwnCodes := by
  unfold Obligations.CommandRaisesItsOwnCodes
  intro i s t h
  rcases exec_cases i s with ⟨u, -, e⟩ | ⟨c, hc, e⟩ <;> cases e.symm.trans h
  · exact ok_mem_commandCodes i
  · exact List.mem_of_mem_tail (commandResult_error_mem hc)

/-! ## What clears FATAL (R111) -/

theorem engineStep_keeps_fatal {s t : State} (hs : s.fatal = true) (h : engineStep s = .next t) : t.fatal = true := by
  cases hw : s.inflight with
  | none =>
    cases (engineStep_idle hw).symm.trans h
    exact hs
  | some w =>
    cases (engineStep_fatal hw hs).symm.trans h
    exact hs

theorem ctrlWrite_keeps_fatal (s : State) {v : Word} (h : v.getLsbD 1 = false) : (ctrlWrite s v).fatal = s.fatal := by
  cases h0 : v.getLsbD 0 with
  | false => rw [ctrlWrite_neither s h h0]
  | true => rw [ctrlWrite_clr s h h0]

theorem writeReg_keeps_fatal (s : State) {r : HostReg} {v : Word} (h : r = .ctrl → v.getLsbD 1 = false) :
    (writeReg s r v).fatal = s.fatal := by
  cases r with
  | ctrl => exact ctrlWrite_keeps_fatal s (h rfl)
  | _ => rfl

theorem hostRead_keeps_fatal {s t : State} {a : Addr} (h : hostRead s a = .next t) : t.fatal = s.fatal := by
  by_cases ha : aligned a = true
  · obtain ⟨w, d, e⟩ := hostRead_aligned s ha
    cases e.symm.trans h
    rfl
  · rw [hostRead, if_neg ha] at h
    cases h

theorem hostWrite_keeps_fatal {s t : State} {a : Addr} {v : Word} (hsrst : a = 0x008 → v.getLsbD 1 = false)
    (h : hostWrite s a v = .next t) : t.fatal = s.fatal := by
  by_cases ha : aligned a = true
  · rcases hostWrite_aligned s v ha with e | e <;> cases e.symm.trans h
    · rfl
    · exact writeReg_keeps_fatal s fun hr => hsrst (hostReg_ctrl hr)
  · rw [hostWrite, if_neg ha] at h
    cases h

/-- An event that clears FATAL is a reset. -/
theorem handle_clears_fatal {s t : State} {e : Event} (h : handle s e = .next t) (hs : s.fatal = true)
    (ht : t.fatal = false) : e = .resetInput ∨ ∃ v : Word, e = .hostWrite 0x008 v ∧ v.getLsbD 1 = true := by
  cases e with
  | resetInput => exact .inl rfl
  | hostRead a => cases ht.symm.trans ((hostRead_keeps_fatal h).trans hs)
  | complete => cases ht.symm.trans (engineStep_keeps_fatal hs h)
  | hostWrite a v =>
    by_cases hsrst : a = 0x008 → v.getLsbD 1 = false
    · cases ht.symm.trans ((hostWrite_keeps_fatal hsrst h).trans hs)
    · obtain ⟨rfl, hv⟩ := Classical.not_imp.1 hsrst
      exact .inr ⟨v, rfl, eq_true_of_ne_false hv⟩

/-- Settles O13: the engine and every event but a reset keep FATAL. -/
theorem fatalClearedOnlyByReset : Obligations.FatalClearedOnlyByReset := by
  unfold Obligations.FatalClearedOnlyByReset
  intro s t h hs ht
  cases he : s.events with
  | nil => cases ht.symm.trans (engineStep_keeps_fatal hs ((step_nil he).symm.trans h))
  | cons e rest =>
    exact ⟨e, rest, rfl, handle_clears_fatal (s := { s with events := rest }) ((step_cons he).symm.trans h) hs ht⟩

/-! ## Commands and the model's own fields (R112) -/

theorem State.SameBlock.exists_around {s s' : State} (h : s.SameBlock s') : ∃ e r d, s' = s.around e r d :=
  ⟨_, _, _, h⟩

theorem State.sameBlock_around (s : State) (e : List Event) (r : List (Addr × Word)) (d : Nat) :
    s.SameBlock (s.around e r d) := rfl

theorem exec_around {i : Instr} {s t : State} (h : exec i s = .next t) (e : List Event) (r : List (Addr × Word))
    (d : Nat) : exec i (s.around e r d) = .next (t.around e r d) := by
  rw [exec_eq_finish, commandResult_around]
  rcases exec_cases i s with ⟨u, hu, hexec⟩ | ⟨c, hc, hexec⟩ <;> cases hexec.symm.trans h
  · rw [hu]; rfl
  · rw [hc]; rfl

/-- Settles O14: a command passes the model's own fields through, whatever they hold. -/
theorem commandsDependOnTheRegistersAlone : Obligations.CommandsDependOnTheRegistersAlone := by
  unfold Obligations.CommandsDependOnTheRegistersAlone
  intro i s s' t hs h
  obtain ⟨e, r, d, rfl⟩ := hs.exists_around
  exact ⟨_, exec_around h e r d, t.sameBlock_around e r d⟩

end Sys2Proof.Machine
end

section
/-! SUPPORT. The life of a command, from its issue to its completion, the two resets, and the host's accesses while BUSY is 1
(70_reset_and_hazards.md R122 to R132). -/

namespace Sys2Proof.Machine

/-! ## Every command in flight ends (R132) -/

/-- Once the host's aligned accesses are used up, one step of the engine leaves the block idle. -/
theorem run_idle {s : State} (hs : s.events.all Event.isAligned = true) :
    ∃ t, Host.Core.run core (s.events.length + 1) s = .next t ∧ t.inflight = none := by
  induction he : s.events generalizing s with
  | nil =>
    obtain ⟨t, ht, hidle, -⟩ := engineStep_next s
    refine ⟨t, ?_, hidle⟩
    rw [run_succ, step_nil he, ht]
    rfl
  | cons e rest ih =>
    rw [he, List.all_cons, Bool.and_eq_true] at hs
    obtain ⟨hfirst, hrest⟩ := hs
    obtain ⟨u, hu, hevents⟩ := handle_next { s with events := rest } hfirst
    obtain ⟨t, ht, hidle⟩ := ih (s := u) (by rw [hevents]; exact hrest) hevents
    refine ⟨t, ?_, hidle⟩
    rw [run_succ, step_cons he, hu]
    exact ht

/-- Settles O15: one step for each event to come and one for the engine, after which nothing is in flight. -/
theorem commandInFlightEnds : Obligations.CommandInFlightEnds := by
  unfold Obligations.CommandInFlightEnds
  intro s _ hs
  obtain ⟨t, ht, hidle⟩ := run_idle hs
  exact ⟨_, le_rfl, t, ht, State.busy_of_idle hidle⟩

/-! ## Issue and completion (R125, R126) -/

theorem engineStep_decoded {s : State} {w : Word} {i : Instr} (hw : s.inflight = some w) (hf : s.fatal = false)
    (hd : decode w = .ok i) : engineStep s = exec i s := by
  simp [engineStep, hw, hf, hd]

/-- Settles O6: both steps are one completion by the engine, which decodes the word and runs the command. -/
theorem stepRunsTheDecodedCommand : Obligations.StepRunsTheDecodedCommand := by
  unfold Obligations.StepRunsTheDecodedCommand
  intro s w i hw hf hd
  refine ⟨fun he => ?_, fun rest he => ?_⟩
  · exact (step_nil he).trans (engineStep_decoded hw hf hd)
  · exact (step_cons he).trans (engineStep_decoded (s := { s with events := rest }) hw hf hd)

theorem hostWrite_cmd_idle {s : State} (w : Word) (hs : s.inflight = none) :
    hostWrite s 0x000 w = .next { s with inflight := some w } :=
  hostWrite_idle w hs rfl

/-- Settles O8: the write issues the word, and BUSY is the bit that tells a word in flight. -/
theorem idleCmdWriteIssues : Obligations.IdleCmdWriteIssues := by
  unfold Obligations.IdleCmdWriteIssues
  intro s w hs
  obtain ⟨hbusy, -⟩ := statusFields { s with inflight := some w }
  exact ⟨_, hostWrite_cmd_idle w hs, hbusy, rfl⟩

/-! ## Both resets (R122) -/

/-- No STATUS field is set after a reset. -/
theorem statusWord_blockReset (s : State) : statusWord s.blockReset = 0 := by
  apply BitVec.eq_of_toNat_eq
  rw [statusWord_toNat]
  rfl

/-- Settles O18: both are `blockReset`, which takes all but V, INF and the model's own fields from the reset state. -/
theorem bothResetsReset : Obligations.BothResetsReset := by
  unfold Obligations.BothResetsReset
  intro s
  refine ⟨rfl, rfl, fun v hsrst => ?_, statusWord_blockReset s, s.blockReset_inflight, fun w => ?_⟩
  · rw [hostWrite_ctrl, ctrlWrite_srst s hsrst]
  · exact hostWrite_cmd_idle w s.blockReset_inflight

/-! ## Host accesses while busy (R127, R128) -/

theorem hostRead_unspecified {s : State} {a : Addr} (hb : s.busy = true) (ha : aligned a = true)
    (hr : (hostReg a).unspecifiedWhileBusy = true) :
    hostRead s a =
      .next { s with readLog := (a, Config.busyRead s.draws) :: s.readLog, draws := s.draws + 1 } := by
  rw [hostRead, if_pos ha, hb, hr, Bool.and_self, if_pos rfl]
  rfl

theorem hostWrite_dropped {s : State} {a : Addr} (v : Word) (hb : s.busy = true) (ha : aligned a = true)
    (hr : (hostReg a).droppedWhileBusy = true) : hostWrite s a v = .next { s with ovr := true } := by
  rw [hostWrite, if_pos ha, hb, hr, Bool.and_self, if_pos rfl]

/-- A lane, a V register or INF: the registers that both the host and the engine write. -/
theorem hostReg_shared {a : Addr} (h : (0x100 ≤ a.toNat ∧ a.toNat ≤ 0x1C4) ∨ (0x200 ≤ a.toNat ∧ a.toNat ≤ 0x400)) :
    (hostReg a).droppedWhileBusy = true ∧ (hostReg a).unspecifiedWhileBusy = true := by
  rcases h with ⟨hlo, hhi⟩ | ⟨hlo, hhi⟩
  · rw [hostReg_lane hlo (by omega)]
    split <;> exact ⟨rfl, rfl⟩
  · rcases hhi.lt_or_eq with hv | hinf
    · rw [hostReg_v hlo hv]
      exact ⟨rfl, rfl⟩
    · rw [hostReg_inf hinf]
      exact ⟨rfl, rfl⟩

/-- Above DIN the low addresses are DOUT, which is read-only, and reserved ones. -/
theorem lowReg_ignoresWrites {n : Nat} (h : 0x020 ≤ n) : (lowReg n).ignoresWrites = true := by
  rcases lt_or_ge n 0x028 with hn | hn
  · interval_cases n <;> rfl
  · rw [lowReg_reserved hn]
    rfl

theorem hostReg_ignoresWrites {a : Addr} (h : (0x020 ≤ a.toNat ∧ a.toNat ≤ 0x0FC) ∨
    (0x1C8 ≤ a.toNat ∧ a.toNat ≤ 0x1FC) ∨ 0x404 ≤ a.toNat) : (hostReg a).ignoresWrites = true := by
  rcases h with ⟨hlo, hhi⟩ | hreserved
  · rw [hostReg_low (by omega)]
    exact lowReg_ignoresWrites hlo
  · rw [hostReg_reserved (.inr hreserved)]
    rfl

/-- Settles O59: the first addresses are the registers whose write is dropped, the last those that ignore writes; CTRL is
performed as ever. -/
theorem busyWritesAreDropped : Obligations.BusyWritesAreDropped := by
  unfold Obligations.BusyWritesAreDropped
  intro s a v hb h
  have ha : aligned a = true := (aligned_iff a).2 h
  refine ⟨fun hdropped => hostWrite_dropped v hb ha ?_, ?ctrl, fun hignored => hostWrite_ignored s v ha ?_⟩
  · rcases hdropped with rfl | rfl | rfl | rfl | hshared
    iterate 4 rfl
    exact (hostReg_shared hshared).1
  case ctrl =>
    rintro rfl
    obtain ⟨hsrst, hclr, hneither, -⟩ := ctrlClearsOrResets s v
    exact ⟨hsrst, hclr, hneither⟩
  · rcases hignored with rfl | rfl | rfl | hrange
    iterate 3 rfl
    exact hostReg_ignoresWrites hrange

/-- Settles O60: a read answers the register's word, 0 or a free value by the kind of the register. -/
theorem busyReads : Obligations.BusyReads := by
  unfold Obligations.BusyReads
  intro s a hb h
  have ha : aligned a = true := (aligned_iff a).2 h
  refine ⟨fun hspecified => hostRead_specified s ha ?_, fun hzero => hostRead_zero s ha ?_,
    fun hfree => hostRead_unspecified hb ha ?_⟩
  · rcases hspecified with rfl | rfl | rfl | rfl <;> rfl
  · rcases hzero with rfl | rfl | hreserved
    iterate 2 rfl
    rw [hostReg_reserved hreserved]
    rfl
  · rcases hfree with rfl | rfl | rfl | rfl | hshared
    iterate 4 rfl
    exact (hostReg_shared hshared).2

end Sys2Proof.Machine
end
